-- ==== Sys2Proof/Word.lean ====
section
/-! DEFINITION. The words of the machine: the byte of an encoded record, the instruction index, the register
names, the Typed Value that registers and stacks hold, the opcode and the operand of an instruction.
Types only: what is computed from them stands in Decode.lean and under Machine/. -/

namespace Sys2Proof

/-- One byte of an encoded record (spec R6). -/
abbrev Byte := BitVec 8

/-- An instruction index, 64 bits unsigned: the program counter, the index of an `Instruction` operand and of
a `ReturnAddress` (spec R5 `IDXW`, R36; the width is decision D10, log entry 12). -/
abbrev Index := BitVec 64

/-- The nine register identities (spec R32). `register1` is slot 0 of the bank, and so on. -/
inductive Reg
  | register1 | register2 | register3 | register4 | register5
  | register6 | register7 | register8 | register9
  deriving DecidableEq, Repr

/-- The ten variants of a Typed Value (spec R31). -/
inductive Variant
  | none
  | uint8 | uint16 | uint32 | uint64
  | int8 | int16 | int32 | int64
  | returnAddress
  deriving DecidableEq, Repr

/-- A Typed Value (spec R31): a tagged union of ten variants. The number of an integer variant is held as its
bit pattern of that width; which integer the pattern stands for is `Value.num` (unsigned for `Uint`, two's
complement for `Int`, spec R86). Equality of this type is the spec's "same value", not the ALU's equality. -/
inductive Value
  | none
  | uint8 (n : BitVec 8)
  | uint16 (n : BitVec 16)
  | uint32 (n : BitVec 32)
  | uint64 (n : BitVec 64)
  | int8 (n : BitVec 8)
  | int16 (n : BitVec 16)
  | int32 (n : BitVec 32)
  | int64 (n : BitVec 64)
  | returnAddress (i : Index)
  deriving DecidableEq, Repr

/-- The operand of an instruction (spec R83): nineteen variants in four classes, namely the nine registers,
none, the eight immediates and the absolute instruction index. -/
inductive Operand
  | register (r : Reg)
  | none
  | uint8 (n : BitVec 8)
  | uint16 (n : BitVec 16)
  | uint32 (n : BitVec 32)
  | uint64 (n : BitVec 64)
  | int8 (n : BitVec 8)
  | int16 (n : BitVec 16)
  | int32 (n : BitVec 32)
  | int64 (n : BitVec 64)
  | instruction (i : Index)
  deriving DecidableEq, Repr

/-- The twelve opcodes (spec R82), in the order of their tags 0 to 11. -/
inductive Opcode
  | push | pop | add | subtract | multiply | divide
  | jumpIfEqual | exit | jumpIfZero | call | ret | jump
  deriving DecidableEq, Repr

end Sys2Proof
end

