-- ==== Sys2Proof/Config.lean ====
section
/-! DEFINITION. The parameters of spec R5 that are open or have a second value in the spec. They are fixed
for one block: `construct` binds them and no step changes them. The State holds them as plain data, so that a
statement over all states covers every value of every parameter. The model has no free value: the spec's
numbered rules state every value the machine produces (log entries 1 to 27 say which rest on a decision). -/

namespace Sys2Proof

/-- `OVERFLOW_POLICY` (spec R136): what an arithmetic result outside the left variant's range does. -/
inductive OverflowPolicy
  | wrap
  | fatal
  deriving DecidableEq, Repr

/-- `PUSH_NONE_OPERAND` (spec R5, R179, decision D6): what `Push` does with the operand `None`. -/
inductive PushNonePolicy
  | pushes
  | valueExpected
  deriving DecidableEq, Repr

/-- The parameters of one block. A depth `none` is the spec's "unbounded" (spec R41). -/
structure Config where
  overflowPolicy : OverflowPolicy
  ostackDepth : Option Nat
  cstackDepth : Option Nat
  pushNone : PushNonePolicy
  jumpTagDecodes : Bool
  deriving DecidableEq, Repr

/-- The values spec R5 chooses. DESIGN CHOICE of the spec where the source leaves the point open (log entries
5, 6, 8 and 11). -/
def Config.chosen : Config :=
  { overflowPolicy := .wrap
    ostackDepth := none
    cstackDepth := none
    pushNone := .pushes
    jumpTagDecodes := true }

end Sys2Proof
end

