-- ==== Sys2Proof/Syntax.lean ====
section
/-! DEFINITION. The instruction: one constructor per row of spec/opcode_table.json, each with its operand
field. Every opcode carries every operand variant (spec R97); an opcode that ignores its operand still holds
it, since a record with such an operand is legal (spec R99). -/

namespace Sys2Proof

/-- An Instruction, the pair of an opcode and an operand (spec R42, R82, R97). -/
inductive Instr
  | push (arg : Operand)
  | pop (arg : Operand)
  | add (arg : Operand)
  | subtract (arg : Operand)
  | multiply (arg : Operand)
  | divide (arg : Operand)
  | jumpIfEqual (arg : Operand)
  | exit (arg : Operand)
  | jumpIfZero (arg : Operand)
  | call (arg : Operand)
  | ret (arg : Operand)
  | jump (arg : Operand)
  deriving DecidableEq, Repr

/-- The opcode of an instruction. -/
def Instr.opcode : Instr → Opcode
  | .push _ => .push
  | .pop _ => .pop
  | .add _ => .add
  | .subtract _ => .subtract
  | .multiply _ => .multiply
  | .divide _ => .divide
  | .jumpIfEqual _ => .jumpIfEqual
  | .exit _ => .exit
  | .jumpIfZero _ => .jumpIfZero
  | .call _ => .call
  | .ret _ => .ret
  | .jump _ => .jump

/-- The operand of an instruction. -/
def Instr.operand : Instr → Operand
  | .push arg => arg
  | .pop arg => arg
  | .add arg => arg
  | .subtract arg => arg
  | .multiply arg => arg
  | .divide arg => arg
  | .jumpIfEqual arg => arg
  | .exit arg => arg
  | .jumpIfZero arg => arg
  | .call arg => arg
  | .ret arg => arg
  | .jump arg => arg

/-- The instruction with a given opcode and operand. -/
def Opcode.instr (op : Opcode) (arg : Operand) : Instr :=
  match op with
  | .push => .push arg
  | .pop => .pop arg
  | .add => .add arg
  | .subtract => .subtract arg
  | .multiply => .multiply arg
  | .divide => .divide arg
  | .jumpIfEqual => .jumpIfEqual arg
  | .exit => .exit arg
  | .jumpIfZero => .jumpIfZero arg
  | .call => .call arg
  | .ret => .ret arg
  | .jump => .jump arg

end Sys2Proof
end

