-- ==== Sys2Proof/WellFormed.lean ====
section
/-! DEFINITION. The well-formedness checks. An `Instr` needs none: spec R97 accepts every one of the 12 by 19
combinations and the types hold every immediate in its range. What can be ill-formed is a record (spec R90,
R98), a record's padding (spec R84, R92) and a program's length (spec R5). `Instr.operandSuits` is the table of
spec R97 as a check a program's author may run; the machine never asks it (decision D29). -/

namespace Sys2Proof

/-- The length in bytes of every record (spec R80, R100). -/
def recordLength : Nat := 10

/-- The opcode byte of a record. -/
def recordOpcodeByte (bs : List Byte) : Byte := bs.getD 0 0

/-- The operand tag byte of a record. -/
def recordOperandByte (bs : List Byte) : Byte := bs.getD 1 0

/-- Spec R98: a record is legal exactly when it has ten bytes, an opcode tag of 0 to 11 and an operand tag of
0 to 18. -/
def recordWellFormed (bs : List Byte) : Bool :=
  bs.length == recordLength
    && decide ((recordOpcodeByte bs).toNat ≤ 11)
    && decide ((recordOperandByte bs).toNat ≤ 18)

/-- The natural width in bytes of the operand variant with a given tag (spec R83). -/
def naturalWidth (tag : Nat) : Nat :=
  match tag with
  | 10 => 1
  | 11 => 2
  | 12 => 4
  | 13 => 8
  | 14 => 1
  | 15 => 2
  | 16 => 4
  | 17 => 8
  | 18 => 8
  | _ => 0

/-- Whether the payload bytes beyond the natural width are all zero, as every encoder leaves them (spec R84). -/
def recordPaddingZero (bs : List Byte) : Bool :=
  (bs.drop (2 + naturalWidth (recordOperandByte bs).toNat)).all (fun b => b == 0)

/-- `PROG_LEN` is below 2^64 (spec R5, decision D14). -/
def programWellFormed (p : List Instr) : Bool := decide (p.length < 2 ^ 64)

/-- Whether an operand is a register (spec R96). -/
def Operand.isRegister : Operand → Bool
  | .register _ => true
  | _ => false

/-- Whether an operand is an instruction index (spec R96). -/
def Operand.isInstruction : Operand → Bool
  | .instruction _ => true
  | _ => false

/-- Spec R97's table: whether the operand's class suits the opcode, so that executing the instruction cannot
end in `ValueExpected`, `RegisterExpected` or, for the jumps and `Call`, `InstructionExpected`. -/
def Instr.operandSuits : Instr → Bool
  | .push arg => !arg.isInstruction
  | .pop arg => arg.isRegister
  | .jumpIfEqual arg => arg.isInstruction
  | .jumpIfZero arg => arg.isInstruction
  | .jump arg => arg.isInstruction
  | .call arg => arg.isInstruction
  | .add _ => true
  | .subtract _ => true
  | .multiply _ => true
  | .divide _ => true
  | .exit _ => true
  | .ret _ => true

end Sys2Proof
end

