-- ==== Sys2Proof/Decode.lean ====
section
/-! DEFINITION. The decoder, total on any bytes and rejecting by name, and after it the encoder, both written
from the tag tables of spec R82 and R83: bytes, operand, record, program image. -/

namespace Sys2Proof

/-- Why a byte string is no record (spec R88 to R90). The spec calls each of them "no value" or rejection. -/
inductive DecodeError
  /-- The string is not exactly as long as the decoder needs (spec R90, R89). -/
  | badLength (length : Nat)
  /-- The opcode tag is 12 to 255 (spec R88). -/
  | badOpcode (tag : Byte)
  /-- The operand tag is 19 to 255 (spec R89, decision D25). -/
  | badOperandTag (tag : Byte)
  deriving DecidableEq, Repr

/-! ### Bytes and numbers (spec R6, R63) -/

/-- `le(b0, b1, …)`: the number whose little-endian bytes are given (spec R6). -/
def leNat : List Byte → Nat
  | [] => 0
  | b :: bs => b.toNat + 256 * leNat bs

/-- The low `k` bytes of a number, the least significant first. -/
def wordBytes : Nat → Nat → List Byte
  | 0, _ => []
  | k + 1, w => BitVec.ofNat 8 w :: wordBytes k (w / 256)

/-! ### Decoding -/

/-- Opcode decode (spec R82, R88). Tag 11 decodes to `Jump` (decision D1). -/
def decodeOpcode (b : Byte) : Except DecodeError Opcode :=
  match b.toNat with
  | 0 => .ok .push
  | 1 => .ok .pop
  | 2 => .ok .add
  | 3 => .ok .subtract
  | 4 => .ok .multiply
  | 5 => .ok .divide
  | 6 => .ok .jumpIfEqual
  | 7 => .ok .exit
  | 8 => .ok .jumpIfZero
  | 9 => .ok .call
  | 10 => .ok .ret
  | 11 => .ok .jump
  | _ => .error (.badOpcode b)

/-- The operand with a given tag and eight payload bytes (spec R83, R85). The number is read from the first
`k` payload bytes, `k` the variant's natural width; the bytes after them are not examined (decision D8). -/
def decodeOperandFields (tag : Byte) (payload : List Byte) : Except DecodeError Operand :=
  match tag.toNat with
  | 0 => .ok (.register .register1)
  | 1 => .ok (.register .register2)
  | 2 => .ok (.register .register3)
  | 3 => .ok (.register .register4)
  | 4 => .ok (.register .register5)
  | 5 => .ok (.register .register6)
  | 6 => .ok (.register .register7)
  | 7 => .ok (.register .register8)
  | 8 => .ok (.register .register9)
  | 9 => .ok .none
  | 10 => .ok (.uint8 (BitVec.ofNat 8 (leNat (payload.take 1))))
  | 11 => .ok (.uint16 (BitVec.ofNat 16 (leNat (payload.take 2))))
  | 12 => .ok (.uint32 (BitVec.ofNat 32 (leNat (payload.take 4))))
  | 13 => .ok (.uint64 (BitVec.ofNat 64 (leNat (payload.take 8))))
  | 14 => .ok (.int8 (BitVec.ofNat 8 (leNat (payload.take 1))))
  | 15 => .ok (.int16 (BitVec.ofNat 16 (leNat (payload.take 2))))
  | 16 => .ok (.int32 (BitVec.ofNat 32 (leNat (payload.take 4))))
  | 17 => .ok (.int64 (BitVec.ofNat 64 (leNat (payload.take 8))))
  | 18 => .ok (.instruction (BitVec.ofNat 64 (leNat (payload.take 8))))
  | _ => .error (.badOperandTag tag)

/-- Operand decode (spec R89): nine bytes, the tag and then the payload. A shorter or longer buffer is refused
(decision D30). -/
def decodeOperand (bs : List Byte) : Except DecodeError Operand :=
  match bs with
  | [t, b0, b1, b2, b3, b4, b5, b6, b7] => decodeOperandFields t [b0, b1, b2, b3, b4, b5, b6, b7]
  | _ => .error (.badLength bs.length)

/-- Record decode, the source's `Op::decode` (spec R90): exactly ten bytes, the opcode byte and then the operand's
nine. It checks nothing else (spec R97). -/
def decodeRecord (bs : List Byte) : Except DecodeError Instr :=
  match bs with
  | [b0, b1, b2, b3, b4, b5, b6, b7, b8, b9] =>
    match decodeOpcode b0 with
    | .error e => .error e
    | .ok op =>
      match decodeOperand [b1, b2, b3, b4, b5, b6, b7, b8, b9] with
      | .error e => .error e
      | .ok arg => .ok (op.instr arg)
  | _ => .error (.badLength bs.length)

/-- Record decode as an image load applies it: with `JUMP_TAG_DECODES = no` a `Jump` record has no decoding
(spec R5, conflict C1). -/
def decodeLoadedRecord (cfg : Config) (bs : List Byte) : Except DecodeError Instr :=
  match decodeRecord bs with
  | .error e => .error e
  | .ok i =>
    if i.opcode = .jump ∧ cfg.jumpTagDecodes = false then .error (.badOpcode (recordOpcodeByte bs))
    else .ok i

/-- The decoding of `count` consecutive records, the first of them record number `k` of the image. The first
record that does not decode refuses them all, with its number (spec R94, R95). -/
def decodeChunks (cfg : Config) : Nat → Nat → List Byte → Except (Nat × DecodeError) (List Instr)
  | _, 0, _ => .ok []
  | k, count + 1, bs =>
    match decodeLoadedRecord cfg (bs.take recordLength) with
    | .error e => .error (k, e)
    | .ok i =>
      match decodeChunks cfg (k + 1) count (bs.drop recordLength) with
      | .error e => .error e
      | .ok p => .ok (i :: p)

/-- Image decode (spec R94): `floor(L / 10)` records; the trailing `L mod 10` bytes are never examined. -/
def decodeImage (cfg : Config) (image : List Byte) : Except (Nat × DecodeError) (List Instr) :=
  decodeChunks cfg 0 (image.length / recordLength) image

/-- The instruction the decoder reads from the 80-bit word `W` of spec R81, given by its low `nbits` bits: bit 0
is the least significant bit of the opcode byte, the bits from `nbits` on are zero. It is the record decode of spec R90:
tag 11 decodes whatever `JUMP_TAG_DECODES` is (log entry 27). -/
def decodeTableWord (nbits w : Nat) : Option Instr :=
  if nbits ≤ 8 * recordLength then
    match decodeRecord (wordBytes recordLength (w % 2 ^ nbits)) with
    | .ok i => some i
    | .error _ => none
  else none

/-! ### Encoding -/

/-- The opcode's tag (spec R82). -/
def Opcode.tag : Opcode → Byte
  | .push => 0
  | .pop => 1
  | .add => 2
  | .subtract => 3
  | .multiply => 4
  | .divide => 5
  | .jumpIfEqual => 6
  | .exit => 7
  | .jumpIfZero => 8
  | .call => 9
  | .ret => 10
  | .jump => 11

/-- The operand tag that names a register, which is its slot number (spec R32, R83). -/
def Reg.tag : Reg → Byte
  | .register1 => 0
  | .register2 => 1
  | .register3 => 2
  | .register4 => 3
  | .register5 => 4
  | .register6 => 5
  | .register7 => 6
  | .register8 => 7
  | .register9 => 8

/-- The operand's tag (spec R83). -/
def Operand.tag : Operand → Byte
  | .register r => r.tag
  | .none => 9
  | .uint8 _ => 10
  | .uint16 _ => 11
  | .uint32 _ => 12
  | .uint64 _ => 13
  | .int8 _ => 14
  | .int16 _ => 15
  | .int32 _ => 16
  | .int64 _ => 17
  | .instruction _ => 18

/-- The payload as a 64-bit number, `zext_64(bits_8k(n))` (spec R84): a negative immediate is not sign-extended
into the padding. -/
def Operand.payload : Operand → Nat
  | .register _ => 0
  | .none => 0
  | .uint8 n => n.toNat
  | .uint16 n => n.toNat
  | .uint32 n => n.toNat
  | .uint64 n => n.toNat
  | .int8 n => n.toNat
  | .int16 n => n.toNat
  | .int32 n => n.toNat
  | .int64 n => n.toNat
  | .instruction i => i.toNat

/-- Operand encode (spec R89): the tag byte, then the eight little-endian payload bytes. -/
def encodeOperand (arg : Operand) : List Byte := arg.tag :: wordBytes 8 arg.payload

/-- Record encode (spec R91): the opcode's tag byte, then the operand's nine bytes. -/
def encodeRecord (i : Instr) : List Byte := i.opcode.tag :: encodeOperand i.operand

/-- Image encode (spec R93): the records in index order, with nothing between them. -/
def encodeImage (p : List Instr) : List Byte := p.flatMap encodeRecord

end Sys2Proof
end

