-- ==== Sys2Proof/Machine/State.lean ====
section
/-! DEFINITION. The state of the block as plain data, the reasons a step stops, and the state after `construct`
and after `reset`. The state of the block is `Block`: the four pieces of spec R30 and nothing else. `State` is what the
host's step takes and answers: a block, with the arguments of the spec's step (the bound Program and the parameters,
log entry 3) and the outcome that the step returns (log entry 2) beside it. Machine/Block.lean has the step of a
block in the spec's own form. -/

namespace Sys2Proof.Machine

/-- The six recoverable failures (spec R250). A step that raises one ends in a NEXT state (log entry 1). -/
inductive ErrorKind
  /-- The operand stack was popped while empty (spec R251). -/
  | stackEmpty
  /-- A target was needed and the operand is no `Instruction`, or `Return` popped no `ReturnAddress` (spec R252). -/
  | instructionExpected
  /-- The program counter is at or past the end of the program (spec R253). -/
  | instructionOverflow
  /-- `Push` of an operand that has no value (spec R254). -/
  | valueExpected
  /-- `Pop` into an operand that is no register (spec R255). -/
  | registerExpected
  /-- `Return` with no pending call (spec R256). -/
  | callStackEmpty
  deriving DecidableEq, Repr

/-- The fatal conditions (spec R257): the step does not complete, the block is dead and no state follows. Safe: the
spec defines no state after them, and the model gives none. -/
inductive Fault
  /-- `Divide` by a right operand that coerces to 0, the left operand not `None` (spec R258). Safe. -/
  | divideByZero
  /-- An arithmetic result outside the left variant's range, only with `OVERFLOW_POLICY = fatal` (spec R259). Safe. -/
  | arithmeticOverflow
  /-- A push on a full stack, only with a finite depth (spec R260). Raised by `Push`, the host's push and `Call`. Safe. -/
  | stackOverflow
  deriving DecidableEq, Repr

/-- What the model refuses. -/
inductive Refusal
  /-- The instruction has no meaning in the model. Raised by no arm of `exec`. Safe. -/
  | notModelled (mnemonic : String)
  /-- `construct` was given an image whose record `index` is the first that does not decode: no block exists (spec
  R95, R261). Raised by `constructImage` alone, never by a step. Safe. -/
  | decodeRefused (index : Nat)
  deriving DecidableEq, Repr

/-- What a step returns to the host with the state it leaves: spec R9's outcomes `Continue`, `Break` and
`Error(kind)`. `Fatal` is not among them, since no state follows it. `notStepped` stands in a state that no step has
just returned. The block stores no outcome (R30, R43): no step reads this, and no command of the port leaves it in the
state (Machine/HostPort.lean). -/
inductive StepReport
  | notStepped
  | continues
  | breaks
  | errs (kind : ErrorKind)
  deriving DecidableEq, Repr

/-- The register bank: nine slots, each holding one Typed Value (spec R32). -/
structure RegBank where
  register1 : Value
  register2 : Value
  register3 : Value
  register4 : Value
  register5 : Value
  register6 : Value
  register7 : Value
  register8 : Value
  register9 : Value
  deriving DecidableEq, Repr

/-- The bank after reset: `None` in every slot (spec R44). -/
def RegBank.cleared : RegBank :=
  { register1 := .none, register2 := .none, register3 := .none, register4 := .none, register5 := .none,
    register6 := .none, register7 := .none, register8 := .none, register9 := .none }

/-- The state of one block: exactly the four items of spec R30. -/
structure Block where
  /-- The program counter, an instruction index (spec R36). -/
  pc : Index
  /-- The register bank (spec R32). -/
  regs : RegBank
  /-- The operand stack (spec R39), the TOP FIRST; the spec writes stacks with the top last (log entry 20). -/
  ostack : List Value
  /-- The call stack (spec R40), the TOP FIRST. Every element is a `ReturnAddress` in every reachable state; the
  type allows any value because `Return` checks what it pops (spec R225). -/
  cstack : List Value
  deriving DecidableEq, Repr

/-- A block with what the host's interface carries beside it. -/
structure State extends Block where
  /-- The bound Program (spec R42): its instructions in index order. Only read. -/
  program : List Instr
  /-- The parameters of the block (spec R5). Only read. -/
  config : Config
  /-- The outcome that the step which answers this state returns with it (log entry 2). -/
  report : StepReport
  deriving DecidableEq, Repr

/-- `construct(Program)` with the parameters of the block (spec R171, R281): the reset state of R44 over the Program. -/
def State.construct (cfg : Config) (p : List Instr) : State :=
  { program := p
    config := cfg
    pc := 0
    regs := RegBank.cleared
    ostack := []
    cstack := []
    report := .notStepped }

/-- The machine right after reset, with the parameters spec R5 chooses and no program bound but the empty one:
a program is handed over from outside, by `construct` (log entry 4). -/
def State.reset : State := State.construct Config.chosen []

/-- What a step, or a part of one, ends in. -/
abbrev Result := Host.Outcome State Fault Refusal

end Sys2Proof.Machine
end

