-- ==== Sys2Proof/Machine/Alu.lean ====
section
/-! DEFINITION. The typed-integer ALU (spec R120 to R137): the number a value carries, conversion, coercion of the
right operand into the left variant, and the four arithmetic operations, computed exactly over the integers and then
narrowed. Pure functions of their arguments (spec R143). -/

namespace Sys2Proof.Machine

/-! ### Numbers and ranges (spec R7, R120) -/

/-- `umod_N(n)`: the member of 0 … 2^N - 1 congruent to `n` (spec R7). -/
def umod (N : Nat) (n : Int) : Int := n % 2 ^ N

/-- `smod_N(n)`: the member of -2^(N-1) … 2^(N-1) - 1 congruent to `n` (spec R7). -/
def smod (N : Nat) (n : Int) : Int := n.bmod (2 ^ N)

/-- The variant of a value. -/
def variantOf : Value → Variant
  | .none => .none
  | .uint8 _ => .uint8
  | .uint16 _ => .uint16
  | .uint32 _ => .uint32
  | .uint64 _ => .uint64
  | .int8 _ => .int8
  | .int16 _ => .int16
  | .int32 _ => .int32
  | .int64 _ => .int64
  | .returnAddress _ => .returnAddress

/-- `num(v)`: the integer a value carries; 0 for `None` (spec R120, R124, decision D5, log entry 7). -/
def num : Value → Int
  | .none => 0
  | .uint8 n => n.toNat
  | .uint16 n => n.toNat
  | .uint32 n => n.toNat
  | .uint64 n => n.toNat
  | .int8 n => n.toInt
  | .int16 n => n.toInt
  | .int32 n => n.toInt
  | .int64 n => n.toInt
  | .returnAddress i => i.toNat

/-- `width(T)` (spec R120). A `ReturnAddress` computes as `Uint64` (spec R130); `None` carries no bits. -/
def widthOf : Variant → Nat
  | .none => 0
  | .uint8 => 8
  | .uint16 => 16
  | .uint32 => 32
  | .uint64 => 64
  | .int8 => 8
  | .int16 => 16
  | .int32 => 32
  | .int64 => 64
  | .returnAddress => 64

/-- Whether a variant is signed (spec R120). -/
def isSigned : Variant → Bool
  | .none => false
  | .uint8 => false
  | .uint16 => false
  | .uint32 => false
  | .uint64 => false
  | .int8 => true
  | .int16 => true
  | .int32 => true
  | .int64 => true
  | .returnAddress => false

/-- `wrap_T(n)` (spec R120). -/
def wrap (T : Variant) (n : Int) : Int :=
  if isSigned T then smod (widthOf T) n else umod (widthOf T) n

/-- The least member of `range(T)` (spec R7, R120). -/
def minOf (T : Variant) : Int := if isSigned T then -(2 ^ (widthOf T - 1)) else 0

/-- The greatest member of `range(T)` (spec R7, R120). -/
def maxOf (T : Variant) : Int := if isSigned T then 2 ^ (widthOf T - 1) - 1 else 2 ^ widthOf T - 1

/-- Whether an integer is in `range(T)` (spec R120, R131). -/
def inRange (T : Variant) (n : Int) : Bool := decide (minOf T ≤ n ∧ n ≤ maxOf T)

/-- The value of variant `T` carrying `wrap_T(n)`. -/
def carry (T : Variant) (n : Int) : Value :=
  match T with
  | .none => .none
  | .uint8 => .uint8 (BitVec.ofInt 8 n)
  | .uint16 => .uint16 (BitVec.ofInt 16 n)
  | .uint32 => .uint32 (BitVec.ofInt 32 n)
  | .uint64 => .uint64 (BitVec.ofInt 64 n)
  | .int8 => .int8 (BitVec.ofInt 8 n)
  | .int16 => .int16 (BitVec.ofInt 16 n)
  | .int32 => .int32 (BitVec.ofInt 32 n)
  | .int64 => .int64 (BitVec.ofInt 64 n)
  | .returnAddress => .returnAddress (BitVec.ofInt 64 n)

/-! ### Conversion and coercion (spec R122 to R126) -/

/-- `conv_T(v) = wrap_T(num(v))` (spec R122), also with `T = ReturnAddress`, which converts as `Uint64`. -/
def conv (T : Variant) (v : Value) : Int := wrap T (num v)

/-- `to_u64(v) = conv_Uint64(v)`, the 64-bit unsigned representation (spec R125). -/
def toU64 (v : Value) : Int := conv .uint64 v

/-! ### Arithmetic (spec R127 to R137) -/

/-- The four operations. -/
inductive ArithOp
  | add | sub | mul | div
  deriving DecidableEq, Repr

/-- The exact result (spec R127 step 4). Division truncates toward zero (spec R134). -/
def exactResult (op : ArithOp) (a b : Int) : Int :=
  match op with
  | .add => a + b
  | .sub => a - b
  | .mul => a * b
  | .div => a.tdiv b

/-- `arith(op, l, r)` (spec R127), its six steps in order: `None` on the left absorbs, the right operand is coerced
into the left variant, a coerced zero divisor is fatal, the exact result is checked under the policy `fatal` and
wrapped into the left variant under `wrap`. -/
def arith (policy : OverflowPolicy) (op : ArithOp) (l r : Value) : Except Fault Value :=
  if l = .none then .ok .none
  else if op = .div ∧ conv (variantOf l) r = 0 then .error .divideByZero
  else if policy = .fatal
      ∧ inRange (variantOf l) (exactResult op (num l) (conv (variantOf l) r)) = false then
    .error .arithmeticOverflow
  else .ok (carry (variantOf l) (exactResult op (num l) (conv (variantOf l) r)))

end Sys2Proof.Machine
end

