-- ==== Sys2Proof/Machine/Ops.lean ====
section
/-! DEFINITION. The named operations every meaning is written over: field updates, the register bank, raising an
error (the one operation that takes an exception on this machine), the default advance and the taken jump, the stack
primitives, fetch. -/

namespace Sys2Proof.Machine

/-! ### One update per field that a step may write -/

/-- `pc <- t`. -/
def State.setPc (s : State) (t : Index) : State := { s with pc := t }

/-- The register bank replaced. -/
def State.setRegs (s : State) (b : RegBank) : State := { s with regs := b }

/-- The operand stack replaced. -/
def State.setOstack (s : State) (st : List Value) : State := { s with ostack := st }

/-- The call stack replaced. -/
def State.setCstack (s : State) (st : List Value) : State := { s with cstack := st }

/-- The step's report to the host. -/
def State.setReport (s : State) (r : StepReport) : State := { s with report := r }

/-! ### The register bank (spec R32 to R34) -/

/-- The bank's `load` for a register identity: `x[K-1]` (spec R33). Reading a never-written slot gives `None`. -/
def RegBank.get (b : RegBank) (r : Reg) : Value :=
  match r with
  | .register1 => b.register1
  | .register2 => b.register2
  | .register3 => b.register3
  | .register4 => b.register4
  | .register5 => b.register5
  | .register6 => b.register6
  | .register7 => b.register7
  | .register8 => b.register8
  | .register9 => b.register9

/-- The bank's `store` for a register identity: `x[K-1] <- v` (spec R34). -/
def RegBank.set (b : RegBank) (r : Reg) (v : Value) : RegBank :=
  match r with
  | .register1 => { b with register1 := v }
  | .register2 => { b with register2 := v }
  | .register3 => { b with register3 := v }
  | .register4 => { b with register4 := v }
  | .register5 => { b with register5 := v }
  | .register6 => { b with register6 := v }
  | .register7 => { b with register7 := v }
  | .register8 => { b with register8 := v }
  | .register9 => { b with register9 := v }

/-- `x[i]` of a state (spec R8). -/
def State.reg (s : State) (r : Reg) : Value := s.regs.get r

/-- `x[i] <- v` of a state (spec R8). -/
def State.setReg (s : State) (r : Reg) (v : Value) : State := s.setRegs (s.regs.set r v)

/-! ### How a step ends -/

/-- `raise Error(kind)` (spec R8, R183, R266): the machine's whole trap entry. The step ends and the kind goes to the
host; the effects of the statements already executed stand in `s` and stay, `pc` keeps the index of the failing
instruction, nothing is saved and control goes nowhere. The spec has no trap return (R267). -/
def raiseError (kind : ErrorKind) (s : State) : Result := .next (s.setReport (.errs kind))

/-- `raise Fatal(kind)` (spec R257): no state follows. -/
def raiseFatal (kind : Fault) : Result := .fault kind

/-- `advance` (spec R177): `pc <- pc + 1; return Continue`. -/
def advance (s : State) : Result := .next ((s.setPc (s.pc + 1)).setReport .continues)

/-- A taken jump (spec R220): `pc <- t; return Continue`, the target used verbatim. -/
def jumpTo (t : Index) (s : State) : Result := .next ((s.setPc t).setReport .continues)

/-- `return Break` (spec R226): the state as it is. -/
def returnBreak (s : State) : Result := .next (s.setReport .breaks)

/-- Go on with the value, or raise the error in the state `s` reached so far. -/
def orRaise {α : Type} (e : Except ErrorKind α) (s : State) (k : α → Result) : Result :=
  match e with
  | .ok a => k a
  | .error kind => raiseError kind s

/-- Go on with the value, or raise the fatal condition. -/
def orFatal {α : Type} (e : Except Fault α) (k : α → Result) : Result :=
  match e with
  | .ok a => k a
  | .error kind => raiseFatal kind

/-! ### The two stacks (spec R180 to R182) -/

/-- Whether a stack of `n` values has reached its depth (spec R41; no depth is unbounded). A stack above its depth,
which no reachable state holds, counts as full too (log entry 19). -/
def stackFull (depth : Option Nat) (n : Nat) : Bool :=
  match depth with
  | none => false
  | some d => decide (d ≤ n)

/-- `opush(v)` (spec R180). -/
def opush (v : Value) (s : State) : Except Fault State :=
  if stackFull s.config.ostackDepth s.ostack.length then .error .stackOverflow
  else .ok (s.setOstack (v :: s.ostack))

/-- `opop()` (spec R180): the top and the state without it. -/
def opop (s : State) : Except ErrorKind (Value × State) :=
  match s.ostack with
  | [] => .error .stackEmpty
  | v :: rest => .ok (v, s.setOstack rest)

/-- `cpush(v)` (spec R181). -/
def cpush (v : Value) (s : State) : Except Fault State :=
  if stackFull s.config.cstackDepth s.cstack.length then .error .stackOverflow
  else .ok (s.setCstack (v :: s.cstack))

/-- `cpop()` (spec R181). -/
def cpop (s : State) : Except ErrorKind (Value × State) :=
  match s.cstack with
  | [] => .error .callStackEmpty
  | v :: rest => .ok (v, s.setCstack rest)

/-- `pop2()` and what follows it (spec R182): the former top is the RIGHT operand, the value below it the LEFT. With
one value on the stack that value is popped and lost. -/
def withTwo (s : State) (k : Value → Value → State → Result) : Result :=
  orRaise (opop s) s fun (r, s1) => orRaise (opop s1) s1 fun (l, s2) => k l r s2

/-! ### Fetch (spec R174) -/

/-- `Fetch(pc)`: instruction number `pc` of the bound Program, or nothing when `pc >= PROG_LEN`. -/
def fetch (s : State) : Option Instr := s.program[s.pc.toNat]?

/-- A program with instruction `i` at index `k` and every other index as before. An index between the program's end
and `k` gets `Exit`, since a program has no holes (log entry 4). -/
def placeAt (i : Instr) (k : Nat) (p : List Instr) : List Instr :=
  p.take k ++ List.replicate (k - p.length) (.exit .none) ++ i :: p.drop (k + 1)

end Sys2Proof.Machine
end

