-- ==== Sys2Proof/Machine/Arithmetic.lean ====
section
/-! DEFINITION. Add, Subtract, Multiply, Divide (spec/43_arithmetic.md). The operand field is ignored (spec R99,
decision D7, log entry 9). -/

namespace Sys2Proof.Machine

/-- The common form (spec R200). -/
def arithInstr (op : ArithOp) (s : State) : Result :=
  withTwo s fun l r s2 =>
    orFatal (arith s2.config.overflowPolicy op l r) fun v => orFatal (opush v s2) advance

/-- `Add` (spec R201). -/
def execAdd (_arg : Operand) (s : State) : Result := arithInstr .add s

/-- `Subtract` (spec R202). -/
def execSubtract (_arg : Operand) (s : State) : Result := arithInstr .sub s

/-- `Multiply` (spec R203). -/
def execMultiply (_arg : Operand) (s : State) : Result := arithInstr .mul s

/-- `Divide` (spec R204). -/
def execDivide (_arg : Operand) (s : State) : Result := arithInstr .div s

end Sys2Proof.Machine
end

