-- ==== Sys2Proof/Machine/Flags.lean ====
section
/-! DEFINITION. The conditions of the two conditional jumps. The machine has no flags, condition codes or status
register (spec R43): a condition is computed from the popped values and used in the same step. -/

namespace Sys2Proof.Machine

/-- `eq(l, r)` (spec R138): `None` on the left equals `None` alone (spec R139); any other left value compares its
number with the right operand coerced into its variant. Not symmetric across variants (spec R140). -/
def condEqual (l r : Value) : Bool :=
  if l = .none then decide (r = .none) else decide (num l = conv (variantOf l) r)

/-- The condition of `JumpIfZero` (spec R222): `to_u64(v) = 0`. -/
def condZero (v : Value) : Bool := decide (toU64 v = 0)

end Sys2Proof.Machine
end

