-- ==== Sys2Proof/Machine/Operands.lean ====
section
/-! DEFINITION. Operand resolution (spec R96, R179): what an instruction gets from its operand, for every one of the
nineteen variants. An immediate is never extended, scaled or shifted; an instruction index is absolute. -/

namespace Sys2Proof.Machine

/-- `arg_value(arg)` (spec R179). The operand `None` yields the value `None` under the chosen parameter and
`ValueExpected` under its alternative (decision D6, log entry 8). -/
def argValue (arg : Operand) (s : State) : Except ErrorKind Value :=
  match arg with
  | .register r => .ok (s.reg r)
  | .none =>
    match s.config.pushNone with
    | .pushes => .ok .none
    | .valueExpected => .error .valueExpected
  | .uint8 n => .ok (.uint8 n)
  | .uint16 n => .ok (.uint16 n)
  | .uint32 n => .ok (.uint32 n)
  | .uint64 n => .ok (.uint64 n)
  | .int8 n => .ok (.int8 n)
  | .int16 n => .ok (.int16 n)
  | .int32 n => .ok (.int32 n)
  | .int64 n => .ok (.int64 n)
  | .instruction _ => .error .valueExpected

/-- `arg_register(arg)` (spec R179). -/
def argRegister (arg : Operand) : Except ErrorKind Reg :=
  match arg with
  | .register r => .ok r
  | _ => .error .registerExpected

/-- `arg_target(arg)` (spec R179). A register operand is not read: there is no indirect jump (spec R220). -/
def argTarget (arg : Operand) : Except ErrorKind Index :=
  match arg with
  | .instruction i => .ok i
  | _ => .error .instructionExpected

end Sys2Proof.Machine
end

