-- ==== Sys2Proof/Machine/ControlFlow.lean ====
section
/-! DEFINITION. JumpIfEqual, JumpIfZero, Jump, Call, Return, Exit (spec/44_control_flow.md). -/

namespace Sys2Proof.Machine

/-- `t = arg_target(arg); pc <- t; return Continue` (spec R220). -/
def takeJump (arg : Operand) (s : State) : Result := orRaise (argTarget arg) s fun t => jumpTo t s

/-- A conditional jump after its values are popped (spec R220): the operand is resolved only when the jump is taken
(decision D18, log entry 14). -/
def jumpWhen (taken : Bool) (arg : Operand) (s : State) : Result :=
  if taken then takeJump arg s else advance s

/-- `JumpIfEqual(arg)` (spec R221). -/
def execJumpIfEqual (arg : Operand) (s : State) : Result :=
  withTwo s fun l r s2 => jumpWhen (condEqual l r) arg s2

/-- `JumpIfZero(arg)` (spec R222). -/
def execJumpIfZero (arg : Operand) (s : State) : Result :=
  orRaise (opop s) s fun (v, s1) => jumpWhen (condZero v) arg s1

/-- `Jump(arg)` (spec R223). -/
def execJump (arg : Operand) (s : State) : Result := takeJump arg s

/-- `Call(arg)` (spec R224): the return address is pushed before the operand is checked (decision D19). -/
def execCall (arg : Operand) (s : State) : Result :=
  orFatal (cpush (.returnAddress (s.pc + 1)) s) fun s1 => takeJump arg s1

/-- `Return` (spec R225): pop, then check the variant (decision D21). The operand is ignored. -/
def execReturn (_arg : Operand) (s : State) : Result :=
  orRaise (cpop s) s fun (v, s1) =>
    match v with
    | .returnAddress a => jumpTo a s1
    | _ => raiseError .instructionExpected s1

/-- `Exit` (spec R226). The operand is ignored. -/
def execExit (_arg : Operand) (s : State) : Result := returnBreak s

end Sys2Proof.Machine
end

