-- ==== Sys2Proof/Machine/StackMoves.lean ====
section
/-! DEFINITION. Push and Pop (spec/42_stack_moves.md). -/

namespace Sys2Proof.Machine

/-- `Push(arg)` (spec R190). -/
def execPush (arg : Operand) (s : State) : Result :=
  orRaise (argValue arg s) s fun v => orFatal (opush v s) advance

/-- `Pop(arg)` (spec R191): the value is popped before the operand is checked. -/
def execPop (arg : Operand) (s : State) : Result :=
  orRaise (opop s) s fun (v, s1) =>
    orRaise (argRegister arg) s1 fun r => advance (s1.setReg r v)

end Sys2Proof.Machine
end

