-- ==== Sys2Proof/Machine/Dispatch.lean ====
section
/-! DEFINITION. The dispatch of spec R175: one arm per opcode, no default arm. -/

namespace Sys2Proof.Machine

def exec (i : Instr) (s : State) : Host.Outcome State Fault Refusal :=
  match i with
  | .push arg => Sys2Proof.Machine.execPush arg s
  | .pop arg => Sys2Proof.Machine.execPop arg s
  | .add arg => Sys2Proof.Machine.execAdd arg s
  | .subtract arg => Sys2Proof.Machine.execSubtract arg s
  | .multiply arg => Sys2Proof.Machine.execMultiply arg s
  | .divide arg => Sys2Proof.Machine.execDivide arg s
  | .jumpIfEqual arg => Sys2Proof.Machine.execJumpIfEqual arg s
  | .exit arg => Sys2Proof.Machine.execExit arg s
  | .jumpIfZero arg => Sys2Proof.Machine.execJumpIfZero arg s
  | .call arg => Sys2Proof.Machine.execCall arg s
  | .ret arg => Sys2Proof.Machine.execReturn arg s
  | .jump arg => Sys2Proof.Machine.execJump arg s

end Sys2Proof.Machine
end

