-- ==== Sys2Proof/Machine/Step.lean ====
section
/-! DEFINITION. One `step` (spec R174, R175), and the placing of one encoded instruction where it is fetched. -/

namespace Sys2Proof.Machine

/-- Spec R174: fetch the instruction at `pc`, or raise `InstructionOverflow` with nothing changed; R175: execute it. -/
def step (s : State) : Host.Outcome State Fault Refusal :=
  match fetch s with
  | none => raiseError .instructionOverflow s
  | some i => exec i s

/-- `s` with the instruction that the word `w` encodes at index `pc` of its bound Program. DESIGN CHOICE, all of it: it
stands for a load from outside by a `construct` over decoded instructions (log entry 4), a word that does not decode
loads nothing (log entry 25), and a `Jump` word is placed whatever `JUMP_TAG_DECODES` is, since that parameter speaks of
images alone (log entry 27). -/
def State.withFetchWord (s : State) (nbits w : Nat) : State :=
  match decodeTableWord nbits w with
  | some i => { s with program := placeAt i s.pc.toNat s.program }
  | none => s

end Sys2Proof.Machine
end

