-- ==== Sys2Proof/Machine/Block.lean ====
section
/-! DEFINITION. The step of a block in the form spec R30 gives it: the state is the product of the four items, the
Program and the parameters are arguments, and the outcome is returned beside the new state (R9, R43). -/

namespace Sys2Proof.Machine

/-- What one step of a block returns (spec R9). -/
inductive StepOutcome
  | continues (b : Block)
  | breaks (b : Block)
  | error (kind : ErrorKind) (b : Block)
  /-- The step does not complete: no block follows (spec R257). -/
  | fatal (kind : Fault)
  /-- The model has no meaning for the instruction. No step ends so (`Obligations.NoStepIsRefused`). -/
  | refused (reason : Refusal)
  deriving DecidableEq, Repr

/-- A block bound to a Program, as the host's step takes it. -/
def Block.bound (cfg : Config) (p : List Instr) (b : Block) : State :=
  { toBlock := b, program := p, config := cfg, report := .notStepped }

/-- The outcome and the block, apart, of what a step answered. -/
def outcomeOf (o : Result) : StepOutcome :=
  match o with
  | .next t =>
    match t.report with
    | .continues => .continues t.toBlock
    | .breaks => .breaks t.toBlock
    | .errs kind => .error kind t.toBlock
    | .notStepped => .continues t.toBlock
  | .fault kind => .fatal kind
  | .refused reason => .refused reason

/-- `step` of a block bound to a Program (spec R30, R174, R175). -/
def Block.step (cfg : Config) (p : List Instr) (b : Block) : StepOutcome := outcomeOf (Machine.step (b.bound cfg p))

/-- What the host's step answers for an outcome of the block bound in `s`. -/
def StepOutcome.result (o : StepOutcome) (s : State) : Result :=
  match o with
  | .continues b => .next { s with toBlock := b, report := .continues }
  | .breaks b => .next { s with toBlock := b, report := .breaks }
  | .error kind b => .next { s with toBlock := b, report := .errs kind }
  | .fatal kind => .fault kind
  | .refused reason => .refused reason

end Sys2Proof.Machine
end

