-- ==== Sys2Proof/Machine/HostPort.lean ====
section
/-! DEFINITION. The command port (spec R170): what the host can do to the block, what it is told, and when a command is
accepted. A command is accepted only when the one before it has completed (spec R186): a `run` in progress ends at
`Break` or at a failure and at nothing else, and until then the port refuses every command. -/

namespace Sys2Proof.Machine

/-- `construct` over a byte image (spec R94, R95, R171): the reset state over the decoded Program, or no block. -/
def constructImage (cfg : Config) (image : List Byte) : Result :=
  match decodeImage cfg image with
  | .ok p => .next (State.construct cfg p)
  | .error (k, _) => .refused (.decodeRefused k)

/-- The state when no step has just returned it: the step's outcome went to the host and stays nowhere (spec R43). -/
def State.settled (s : State) : State := s.setReport .notStepped

/-- The host's `push(value)` (spec R172): any of the ten variants; nothing of the block but the operand stack changes. -/
def hostPush (v : Value) (s : State) : Result := orFatal (opush v s) fun t => .next t.settled

/-- The host's `pop()` (spec R173): the removed top and the state without it, or `StackEmpty`. -/
def hostPop (s : State) : Except ErrorKind (Value × State) :=
  match opop s with
  | .ok (v, t) => .ok (v, t.settled)
  | .error kind => .error kind

/-- The host's `reset()` (spec R185, R280): the reset state over the same Program. It cannot fail. -/
def hostReset (s : State) : State := State.construct s.config s.program

/-! ### The port -/

/-- The commands on an existing block (spec R170). -/
inductive Command
  | push (v : Value)
  | pop
  | step
  | run
  | reset
  deriving DecidableEq, Repr

/-- The outcome of a command (spec R9 and the table of R170). -/
inductive Reply
  | done
  | value (v : Value)
  | stepped (r : StepReport)
  | success
  | error (kind : ErrorKind)
  | fatal (kind : Fault)
  | decodeRefused (index : Nat)
  deriving DecidableEq, Repr

/-- The port between two transitions. -/
inductive Port
  /-- No block exists: before the first `construct`, or after a refused image (spec R171). -/
  | absent
  /-- No command is in progress. -/
  | ready (s : State)
  /-- A `run` is in progress, between two of its steps (spec R178). -/
  | running (s : State)
  /-- The block is dead after a `Fatal` outcome, and has no state (spec R257). -/
  | dead (kind : Fault)
  /-- The model has no meaning for an instruction. Never reached (`Obligations.NoStepIsRefused`). -/
  | unmodelled (reason : Refusal)
  deriving DecidableEq, Repr

/-- The state that a port's block has. -/
def Port.held : Port → Option State
  | .absent => none
  | .ready s => some s
  | .running s => some s
  | .dead _ => none
  | .unmodelled _ => none

/-- Power-on or hardware reset over decoded instructions (spec R171, R281). It takes nothing from the port's past, so
it is there in every state of it, after `Fatal` and during a `run` too (spec R257, R289). -/
def Port.construct (cfg : Config) (p : List Instr) : Port × Reply := (.ready (State.construct cfg p), .done)

/-- The same over an image: a refused one leaves no block (spec R95, R171). -/
def Port.constructImage (cfg : Config) (image : List Byte) : Port × Reply :=
  match decodeImage cfg image with
  | .ok p => Port.construct cfg p
  | .error (k, _) => (.absent, .decodeRefused k)

/-- The `step` command (spec R176): it completes with its outcome. -/
def performStep (s : State) : Port × Option Reply :=
  match step s with
  | .next t => (.ready t.settled, some (.stepped t.report))
  | .fault kind => (.dead kind, some (.fatal kind))
  | .refused reason => (.unmodelled reason, none)

/-- One step of a `run` in progress, the body of the loop of spec R178. -/
def runOnce (s : State) : Port × Option Reply :=
  match step s with
  | .next t =>
    match t.report with
    | .continues => (.running t, none)
    | .breaks => (.ready t.settled, some .success)
    | .errs kind => (.ready t.settled, some (.error kind))
    | .notStepped => (.running t, none)
  | .fault kind => (.dead kind, some (.fatal kind))
  | .refused reason => (.unmodelled reason, none)

/-- One accepted command: where it leaves the port, and its outcome if it has completed. A `run` has not. -/
def perform (c : Command) (s : State) : Port × Option Reply :=
  match c with
  | .push v =>
    match hostPush v s with
    | .next t => (.ready t, some .done)
    | .fault kind => (.dead kind, some (.fatal kind))
    | .refused reason => (.unmodelled reason, none)
  | .pop =>
    match hostPop s with
    | .ok (v, t) => (.ready t, some (.value v))
    | .error kind => (.ready s.settled, some (.error kind))
  | .step => performStep s
  | .run => (.running s, none)
  | .reset => (.ready (hostReset s), some .done)

/-- What happens at the port: the host issues a command, or the block makes the next step of a `run` in progress. -/
inductive PortEvent
  | issue (c : Command)
  | work
  deriving DecidableEq, Repr

/-- One event at the port; nothing where the spec has none: a command is accepted on a ready port alone (spec R186), and
only a `run` in progress makes steps of its own. A host that issues a command elsewhere is thereby left out (U13). -/
def portStep (e : PortEvent) (p : Port) : Option (Port × Option Reply) :=
  match e, p with
  | .issue c, .ready s => some (perform c s)
  | .issue _, .absent => none
  | .issue _, .running _ => none
  | .issue _, .dead _ => none
  | .issue _, .unmodelled _ => none
  | .work, .running s => some (runOnce s)
  | .work, .absent => none
  | .work, .ready _ => none
  | .work, .dead _ => none
  | .work, .unmodelled _ => none

/-- A sequence of events, each of them accepted. -/
def portRun : List PortEvent → Port → Option Port
  | [], p => some p
  | e :: es, p =>
    match portStep e p with
    | some (q, _) => portRun es q
    | none => none

/-! ### `run` under fuel, for claims about a program (spec R178, decision D26, log entry 17) -/

/-- How far a `run` has come after a number of steps: to its end, or no further than `stillRunning`, which is no outcome
of the block. -/
inductive RunEnd
  | success (s : State)
  | error (kind : ErrorKind) (s : State)
  | fatal (kind : Fault)
  | refused (r : Refusal)
  | stillRunning (s : State)
  deriving DecidableEq, Repr

/-- `run` for at most `fuel` steps. The port never stops a `run` so. -/
def run : Nat → State → RunEnd
  | 0, s => .stillRunning s
  | fuel + 1, s =>
    match step s with
    | .fault f => .fatal f
    | .refused r => .refused r
    | .next t =>
      match t.report with
      | .breaks => .success t
      | .errs kind => .error kind t
      | .continues => run fuel t
      | .notStepped => run fuel t

/-! ### The numbers of a status port (spec R262, decision D15): identification only -/

/-- The outcome class of a step. A state no step has made has none. -/
def outcomeClass (o : Result) : Option Nat :=
  match o with
  | .next t =>
    match t.report with
    | .continues => some 0
    | .breaks => some 1
    | .errs _ => some 2
    | .notStepped => none
  | .fault _ => some 3
  | .refused _ => none

/-- The number of an error kind. -/
def ErrorKind.code : ErrorKind → Nat
  | .stackEmpty => 0
  | .instructionExpected => 1
  | .instructionOverflow => 2
  | .valueExpected => 3
  | .registerExpected => 4
  | .callStackEmpty => 5

/-- The number of a fatal kind. -/
def Fault.code : Fault → Nat
  | .divideByZero => 0
  | .arithmeticOverflow => 1
  | .stackOverflow => 2

end Sys2Proof.Machine
end

