-- ==== Sys2Proof/Safety.lean ====
section
/-! DEFINITION. What claims are stated in: the invariant of every reachable state, the steps of a run, and what a
run that ended well is; and second readings of the ALU in bit vectors, for equivalence claims. -/

namespace Sys2Proof.Machine

/-- A pending return address and where it came from (spec R38, R224, R227): a `ReturnAddress` whose index is one past
an index at which the bound Program holds a `Call`. -/
def IsReturnSite (p : List Instr) (v : Value) : Prop :=
  ∃ (k : Nat) (i : Index) (arg : Operand), v = .returnAddress i ∧ i.toNat = k + 1 ∧ p[k]? = some (.call arg)

/-- The length of a stack does not exceed its depth (spec R41). -/
def WithinDepth (depth : Option Nat) (st : List Value) : Prop := ∀ d, depth = some d → st.length ≤ d

/-- The invariant of every reachable state: the Program's length is below 2^64 (spec R5), every element of the call
stack is a return address pushed by a `Call` of the Program (spec R40, R38), and the stacks fit (spec R41). -/
structure Inv (s : State) : Prop where
  programFits : programWellFormed s.program = true
  callStack : ∀ v ∈ s.cstack, IsReturnSite s.program v
  ostackFits : WithinDepth s.config.ostackDepth s.ostack
  cstackFits : WithinDepth s.config.cstackDepth s.cstack

/-- Every element of a call stack is a `ReturnAddress` (spec R40). -/
def HoldsOnlyReturnAddresses (st : List Value) : Prop := ∀ v ∈ st, ∃ i, v = .returnAddress i

/-- `n` steps that all answered a next state with `Continue`, from `s` to `t`. -/
def ContinuesTo : Nat → State → State → Prop
  | 0, s, t => s = t
  | n + 1, s, t => ∃ u, step s = .next u ∧ u.report = .continues ∧ ContinuesTo n u t

/-- Steps from `s` to `t`, each answering a next state, in which the call stack never holds fewer than `d` values:
the calls and returns in between are balanced when it ends with exactly `d` (spec R227). -/
def StaysAbove (d : Nat) : Nat → State → State → Prop
  | 0, s, t => s = t ∧ d ≤ s.cstack.length
  | n + 1, s, t => d ≤ s.cstack.length ∧ ∃ u, step s = .next u ∧ StaysAbove d n u t

/-- A step that ended neither in an `Error` nor in a `Fatal`. -/
def StepSafe (s : State) : Prop :=
  ∃ t, step s = .next t ∧ (t.report = .continues ∨ t.report = .breaks)

/-! ### Second readings that claims compare the model with -/

/-- The 64-bit extension of a value by its own signedness (spec R123, R125). -/
def extendTo64 : Value → BitVec 64
  | .none => 0
  | .uint8 n => n.zeroExtend 64
  | .uint16 n => n.zeroExtend 64
  | .uint32 n => n.zeroExtend 64
  | .uint64 n => n
  | .int8 n => n.signExtend 64
  | .int16 n => n.signExtend 64
  | .int32 n => n.signExtend 64
  | .int64 n => n
  | .returnAddress i => i

/-- The value of a variant whose pattern is the low bits of a 64-bit pattern (spec R123). -/
def truncateTo (T : Variant) (x : BitVec 64) : Value :=
  match T with
  | .none => .none
  | .uint8 => .uint8 (x.truncate 8)
  | .uint16 => .uint16 (x.truncate 16)
  | .uint32 => .uint32 (x.truncate 32)
  | .uint64 => .uint64 x
  | .int8 => .int8 (x.truncate 8)
  | .int16 => .int16 (x.truncate 16)
  | .int32 => .int32 (x.truncate 32)
  | .int64 => .int64 x
  | .returnAddress => .returnAddress x

/-- The arithmetic of two values of one variant is the width's native bit-vector arithmetic. -/
def NativeIn (N : Nat) (signed : Bool) (mk : BitVec N → Value) : Prop :=
  ∀ a b : BitVec N,
    arith .wrap .add (mk a) (mk b) = .ok (mk (a + b)) ∧
    arith .wrap .sub (mk a) (mk b) = .ok (mk (a - b)) ∧
    arith .wrap .mul (mk a) (mk b) = .ok (mk (a * b)) ∧
    arith .wrap .div (mk a) (mk b) =
      if b = 0 then .error .divideByZero else .ok (mk (if signed then a.sdiv b else a.udiv b))

/-- `s` with another register bank, in a next state (a fault stays a fault). -/
def withBank (b : RegBank) (o : Result) : Result :=
  match o with
  | .next t => .next { t with regs := b }
  | .fault f => .fault f
  | .refused q => .refused q

end Sys2Proof.Machine
end

