-- ==== Sys2Proof/Certificates/Slice0/Obligations.lean ====
section
/-! DEFINITION. The statements for the provers. "Derived" in a docstring means that the statement, or the clause named,
rests on a decision of the spec (D<n> of 92_eei_decisions.md) or on an inference the spec marks as its own. Stacks are
lists with the top first. -/

open Sys2Proof Sys2Proof.Machine

/-! ### Reset, the bound Program, the model's report -/

/-- Spec R44: what `construct` and `reset` leave. -/
def Obligations.ConstructAndResetLeaveResetState : Prop :=
  (∀ (cfg : Config) (p : List Instr),
    (State.construct cfg p).pc = 0 ∧ (∀ r, (State.construct cfg p).reg r = .none)
      ∧ (State.construct cfg p).ostack = [] ∧ (State.construct cfg p).cstack = []
      ∧ (State.construct cfg p).program = p) ∧
  (∀ s : State,
    (hostReset s).pc = 0 ∧ (∀ r, (hostReset s).reg r = .none) ∧ (hostReset s).ostack = []
      ∧ (hostReset s).cstack = [] ∧ (hostReset s).program = s.program)

/-- Spec R282: after any commands and any runs, completed or not, `reset` restores the freshly constructed block, every
field of it. -/
def Obligations.ResetRestoresConstructedBlock : Prop :=
  ∀ (cfg : Config) (p : List Instr) (es : List PortEvent) (q : Port) (t : State),
    portRun es (.ready (State.construct cfg p)) = some q → q.held = some t →
    hostReset t = State.construct cfg p ∧
    (q = .ready t → portStep (.issue .reset) q = some (.ready (State.construct cfg p), some .done))

/-- Spec R69: no instruction and no host command writes the Program, so every fetch of an index gives the same
instruction for the life of the block. -/
def Obligations.NothingWritesTheProgram : Prop :=
  ∀ s : State,
    (∀ i t, exec i s = .next t → t.program = s.program) ∧
    (∀ t, step s = .next t → t.program = s.program) ∧
    (∀ c t, (perform c s).1.held = some t → t.program = s.program) ∧
    (∀ (es : List PortEvent) (q : Port) (t : State) (k : Nat),
      portRun es (.ready s) = some q → q.held = some t → t.program[k]? = s.program[k]?)

/-- Derived (spec R30, R43, decision D16): no latched outcome feeds a step. The report is the model's own field (log
entry 2), and what a step answers does not depend on it. -/
def Obligations.StepNeverReadsTheReport : Prop :=
  ∀ (s : State) (r : StepReport), step { s with report := r } = step s

/-! ### Fetch and step -/

/-- Spec R174: the fetch check, and the execution of instruction number `pc`. -/
def Obligations.FetchIsCheckedAgainstProgramLength : Prop :=
  ∀ s : State,
    (s.program.length ≤ s.pc.toNat →
      step s = .next { s with report := .errs .instructionOverflow }
        ∧ ∀ t, step s = .next t → step t = .next t) ∧
    (∀ h : s.pc.toNat < s.program.length, step s = exec s.program[s.pc.toNat] s)

/-- Derived (spec R72, R94, R174, R175): with a Program loaded from an image, when the ten bytes at record `pc` decode
to an instruction, the step is that instruction's execution in the same state. Nothing stands around it. -/
def Obligations.StepRunsTheDecodedRecord : Prop :=
  ∀ (cfg : Config) (image : List Byte) (s₀ s : State) (i : Instr),
    constructImage cfg image = .next s₀ → s.program = s₀.program →
    decodeRecord ((image.drop (10 * s.pc.toNat)).take 10) = .ok i →
    step s = exec i s

/-- Derived (spec R174, over R81 and R90 for the word): the state the host makes from one encoded word runs that word's
instruction next, and differs from the state it was made from in the Program alone: there in index `pc` and, where `pc`
lies past the end, in the indices between, which hold `Exit`. Placing a word, and that padding, are the model's choice
and no rule of the spec (log entries 4, 25 and 27). -/
def Obligations.PlacedWordIsExecutedNext : Prop :=
  ∀ (s : State) (nbits w : Nat) (i : Instr), decodeTableWord nbits w = some i →
    step (s.withFetchWord nbits w) = exec i (s.withFetchWord nbits w)
      ∧ (∃ p, s.withFetchWord nbits w = { s with program := p })
      ∧ ∀ k, (s.withFetchWord nbits w).program[k]? =
          if k = s.pc.toNat then some i
          else if k < s.program.length then s.program[k]?
          else if k < s.pc.toNat then some (.exit .none)
          else none

/-- Derived (spec R95, R98, R175): no step is refused. An instruction that can be fetched has a meaning. -/
def Obligations.NoStepIsRefused : Prop :=
  ∀ (s : State) (i : Instr) (q : Refusal), exec i s ≠ .refused q ∧ step s ≠ .refused q

/-- Derived (spec R5, R257 to R260, decisions D2, D3, D13): with the chosen parameters every instruction but `Divide`
answers a next state in every state, and `Divide` answers one or is the fatal `DivideByZero`. -/
def Obligations.ChosenParametersStopOnlyOnDivideByZero : Prop :=
  ∀ (s : State) (i : Instr), s.config = Config.chosen →
    ((∃ t, exec i s = .next t) ∨ exec i s = .fault .divideByZero) ∧
    (i.opcode ≠ .divide → ∃ t, exec i s = .next t)

/-! ### Encoding -/

/-- Derived (spec R82 to R84, R88, vectors of 95_test_vectors.md section 2.1, decision D1 for tag 11): nine records
written out from the tag tables and the payload rule decode to their instructions, and one with the opcode tag 12 is
rejected. -/
def Obligations.WrittenOutRecordsDecode : Prop :=
  decodeRecord [0x00, 0x0D, 0x08, 0x07, 0x06, 0x05, 0x04, 0x03, 0x02, 0x01]
      = .ok (.push (.uint64 72623859790382856)) ∧
  decodeRecord [0x00, 0x0E, 0x80, 0, 0, 0, 0, 0, 0, 0] = .ok (.push (.int8 (-128))) ∧
  decodeRecord [0x00, 0x0F, 0xFE, 0xFF, 0, 0, 0, 0, 0, 0] = .ok (.push (.int16 (-2))) ∧
  decodeRecord [0x01, 0x08, 0, 0, 0, 0, 0, 0, 0, 0] = .ok (.pop (.register .register9)) ∧
  decodeRecord [0x02, 0x09, 0, 0, 0, 0, 0, 0, 0, 0] = .ok (.add .none) ∧
  decodeRecord [0x06, 0x12, 0x0A, 0, 0, 0, 0, 0, 0, 0] = .ok (.jumpIfEqual (.instruction 10)) ∧
  decodeRecord [0x09, 0x12, 0x04, 0, 0, 0, 0, 0, 0, 0] = .ok (.call (.instruction 4)) ∧
  decodeRecord [0x0A, 0x09, 0, 0, 0, 0, 0, 0, 0, 0] = .ok (.ret .none) ∧
  decodeRecord [0x0B, 0x12, 0x05, 0, 0, 0, 0, 0, 0, 0] = .ok (.jump (.instruction 5)) ∧
  decodeRecord [0x0C, 0x09, 0, 0, 0, 0, 0, 0, 0, 0] = .error (.badOpcode 0x0C)

/-- Derived (spec R92): decode undoes encode, for every opcode with every operand at every value. -/
def Obligations.DecodeUndoesEncode : Prop :=
  ∀ i : Instr, decodeRecord (encodeRecord i) = .ok i

/-- Derived (spec R92, decision D8): encode undoes decode on exactly the records whose padding is zero. -/
def Obligations.EncodeUndoesDecodeOnZeroPadding : Prop :=
  ∀ (bs : List Byte) (i : Instr), decodeRecord bs = .ok i →
    (encodeRecord i = bs ↔ recordPaddingZero bs = true)

/-- Derived (spec R85, decision D8): two records of ten bytes that agree up to the operand's natural width decode to
the same instruction. -/
def Obligations.PaddingIsNotExamined : Prop :=
  ∀ (bs bs' : List Byte) (i : Instr), decodeRecord bs = .ok i → bs'.length = 10 →
    bs'.take (2 + naturalWidth i.operand.tag.toNat) = bs.take (2 + naturalWidth i.operand.tag.toNat) →
    decodeRecord bs' = .ok i

/-- Derived (spec R88 to R90, R98, decisions D1, D25): the legal records are exactly those of ten bytes with an opcode
tag of at most 11 and an operand tag of at most 18; every other string is rejected by name. -/
def Obligations.RecordDecodesExactlyWhenLegal : Prop :=
  (∀ bs : List Byte, (∃ i, decodeRecord bs = .ok i) ↔
    bs.length = 10 ∧ (bs.getD 0 0).toNat ≤ 11 ∧ (bs.getD 1 0).toNat ≤ 18) ∧
  (∀ bs : List Byte, bs.length ≠ 10 → decodeRecord bs = .error (.badLength bs.length)) ∧
  (∀ bs : List Byte, bs.length = 10 → 11 < (bs.getD 0 0).toNat →
    decodeRecord bs = .error (.badOpcode (bs.getD 0 0))) ∧
  (∀ bs : List Byte, bs.length = 10 → (bs.getD 0 0).toNat ≤ 11 → 18 < (bs.getD 1 0).toNat →
    decodeRecord bs = .error (.badOperandTag (bs.getD 1 0)))

/-- Spec R91: a record is the opcode's tag byte and then the operand's nine bytes, its padding is zero, and the
instruction round-trips through it. -/
def Obligations.EncodedRecordHasTagOperandAndZeroPadding : Prop :=
  ∀ i : Instr,
    encodeRecord i = i.opcode.tag :: encodeOperand i.operand
      ∧ (encodeOperand i.operand).length = 9 ∧ (encodeRecord i).length = 10
      ∧ recordPaddingZero (encodeRecord i) = true ∧ decodeRecord (encodeRecord i) = .ok i

/-- Spec R94: image decode cuts ten-byte records and never examines the trailing bytes. -/
def Obligations.ImageDecodeCutsRecordsAndDropsTail : Prop :=
  ∀ (cfg : Config) (image : List Byte),
    (∀ p, decodeImage cfg image = .ok p →
      p.length = image.length / 10 ∧
      ∀ k i, p[k]? = some i → decodeRecord ((image.drop (10 * k)).take 10) = .ok i) ∧
    (∀ tail : List Byte, image.length % 10 = 0 → tail.length < 10 →
      decodeImage cfg (image ++ tail) = decodeImage cfg image) ∧
    (image.length < 10 → decodeImage cfg image = .ok [])

/-- Derived (spec R95, R261, decision D11, conflict C1): an image is refused as a whole exactly when one of its records
does not decode, and the refusal names the first such record; otherwise a block exists, over the decoded records. -/
def Obligations.ImageRefusedAtItsFirstBadRecord : Prop :=
  ∀ (cfg : Config) (image : List Byte),
    let good := fun k => ∃ i, decodeRecord ((image.drop (10 * k)).take 10) = .ok i
      ∧ (i.opcode = .jump → cfg.jumpTagDecodes = true)
    (∀ n, constructImage cfg image = .refused (.decodeRefused n) ↔
      n < image.length / 10 ∧ ¬ good n ∧ ∀ m, m < n → good m) ∧
    ((∀ m, m < image.length / 10 → good m) →
      ∃ p, decodeImage cfg image = .ok p ∧ constructImage cfg image = .next (State.construct cfg p))

/-- Derived (spec R92 to R94): loading the image of a program gives the program back. -/
def Obligations.ImageOfProgramLoadsTheProgram : Prop :=
  ∀ (cfg : Config) (p : List Instr), cfg.jumpTagDecodes = true →
    (encodeImage p).length = 10 * p.length ∧
    constructImage cfg (encodeImage p) = .next (State.construct cfg p)

/-! ### Push and Pop -/

/-- Derived (spec R190, R179, decision D6 for the operand `None`): `Push` completes, when the stack has room, for every
operand that has a value, with that value on top and nothing else changed but `pc`. -/
def Obligations.PushPutsTheOperandsValueOnTop : Prop :=
  ∀ s : State, (∀ d, s.config.ostackDepth = some d → s.ostack.length < d) →
    let pushes := fun (arg : Operand) (v : Value) =>
      exec (.push arg) s
        = .next { s with ostack := v :: s.ostack, pc := s.pc + 1, report := .continues }
    (∀ r, pushes (.register r) (s.regs.get r)) ∧
    (s.config.pushNone = .pushes → pushes .none .none) ∧
    (∀ n, pushes (.uint8 n) (.uint8 n)) ∧ (∀ n, pushes (.uint16 n) (.uint16 n)) ∧
    (∀ n, pushes (.uint32 n) (.uint32 n)) ∧ (∀ n, pushes (.uint64 n) (.uint64 n)) ∧
    (∀ n, pushes (.int8 n) (.int8 n)) ∧ (∀ n, pushes (.int16 n) (.int16 n)) ∧
    (∀ n, pushes (.int32 n) (.int32 n)) ∧ (∀ n, pushes (.int64 n) (.int64 n))

/-- Derived (spec R191, R34): `Pop` into a register completes; the named register takes the popped value with its
variant, every other register and everything else but `pc` is unchanged. -/
def Obligations.PopStoresTheTopInTheRegister : Prop :=
  ∀ (s : State) (r : Reg) (v : Value) (rest : List Value), s.ostack = v :: rest →
    ∃ t, exec (.pop (.register r)) s = .next t
      ∧ t.reg r = v ∧ (∀ q, q ≠ r → t.reg q = s.reg q) ∧ t.ostack = rest ∧ t.pc = s.pc + 1
      ∧ t.cstack = s.cstack ∧ t.program = s.program ∧ t.config = s.config ∧ t.report = .continues

/-- Derived (spec R191 corner case (d), R192): `Push(Ra); Pop(Rb)` moves a register and, with the same register twice,
leaves the state as it was but for `pc`. -/
def Obligations.PushThenPopMovesARegister : Prop :=
  ∀ (s : State) (a b : Reg), programWellFormed s.program = true →
    s.program[s.pc.toNat]? = some (.push (.register a)) →
    s.program[s.pc.toNat + 1]? = some (.pop (.register b)) →
    (∀ d, s.config.ostackDepth = some d → s.ostack.length < d) →
    ∃ u t, step s = .next u ∧ step u = .next t
      ∧ t.reg b = s.reg a ∧ (∀ q, q ≠ b → t.reg q = s.reg q)
      ∧ t.ostack = s.ostack ∧ t.cstack = s.cstack ∧ t.pc.toNat = s.pc.toNat + 2
      ∧ (a = b → t = { s with pc := s.pc + 2, report := .continues })

/-! ### The ALU and the arithmetic instructions -/

/-- Derived (spec R122 to R125, decision D5 for `None`, general knowledge G1 and G2): converting a value is extending
its pattern by the SOURCE's signedness, keeping the low bits, and reading them in the target's signedness; every cell of
the table of R123. -/
def Obligations.ConversionExtendsThenTruncates : Prop :=
  ∀ (T : Variant) (v : Value), T ≠ .none →
    carry T (conv T v) = truncateTo T (extendTo64 v) ∧
    conv T v = num (truncateTo T (extendTo64 v)) ∧
    toU64 v = (extendTo64 v).toNat

/-- Derived (spec R126, R131 to R137, R142, decisions D2, D3, D4, D28): same-variant pairs compute natively in that
width, the overflowing division included. -/
def Obligations.SameVariantArithmeticIsNative : Prop :=
  NativeIn 8 false .uint8 ∧ NativeIn 16 false .uint16 ∧ NativeIn 32 false .uint32 ∧ NativeIn 64 false .uint64 ∧
  NativeIn 8 true .int8 ∧ NativeIn 16 true .int16 ∧ NativeIn 32 true .int32 ∧ NativeIn 64 true .int64 ∧
  NativeIn 64 false .returnAddress

/-- Derived (spec R200 to R203, R126, R129, decision D2 for a result out of range, D5 for `None` on the right): `Add`,
`Subtract` and `Multiply` complete on two values with the left one no `None` and room for the result, under the policy
`wrap` or with the exact result in range: the result has the left variant and the
one number of that variant's range congruent to the exact result; nothing but the two values and `pc` changes, and the
operand field plays no part. -/
def Obligations.AddSubtractMultiplyComplete : Prop :=
  ∀ (s : State) (arg : Operand) (l r : Value) (rest : List Value),
    s.ostack = r :: l :: rest → l ≠ .none →
    (∀ d, s.config.ostackDepth = some d → rest.length < d) →
    let T := variantOf l
    let gives := fun (i : Instr) (x : Int) =>
      (s.config.overflowPolicy = .wrap ∨ (minOf T ≤ x ∧ x ≤ maxOf T)) →
      ∃ v, exec i s = .next { s with ostack := v :: rest, pc := s.pc + 1, report := .continues }
        ∧ variantOf v = T ∧ minOf T ≤ num v ∧ num v ≤ maxOf T ∧ (2 ^ widthOf T : Int) ∣ num v - x
    gives (.add arg) (num l + conv T r) ∧
    gives (.subtract arg) (num l - conv T r) ∧
    gives (.multiply arg) (num l * conv T r)

/-- Derived (spec R134, R137, R204, decision D4 for the one quotient out of range): `Divide` completes when the left value
is no `None`, the coerced right number is not zero and there is room for the result, under the policy `wrap` or with the
quotient in range; the quotient truncates toward zero, and the result is in the left variant. -/
def Obligations.DivideCompletesTruncating : Prop :=
  ∀ (s : State) (arg : Operand) (l r : Value) (rest : List Value),
    s.ostack = r :: l :: rest → l ≠ .none → conv (variantOf l) r ≠ 0 →
    (∀ d, s.config.ostackDepth = some d → rest.length < d) →
    let T := variantOf l
    ∃ q : Int,
      (q.natAbs = (num l).natAbs / (conv T r).natAbs
        ∧ (0 ≤ num l * conv T r → 0 ≤ q) ∧ (num l * conv T r ≤ 0 → q ≤ 0)) ∧
      ((s.config.overflowPolicy = .wrap ∨ (minOf T ≤ q ∧ q ≤ maxOf T)) →
        ∃ v, exec (.divide arg) s = .next { s with ostack := v :: rest, pc := s.pc + 1, report := .continues }
          ∧ variantOf v = T ∧ minOf T ≤ num v ∧ num v ≤ maxOf T ∧ (2 ^ widthOf T : Int) ∣ num v - q)

/-- Derived (spec R128; its division case is the spec's inference): `None` on the left absorbs in all four operations,
whatever is on the right, when there is room for the result, and nothing is divided. -/
def Obligations.NoneOnTheLeftAbsorbs : Prop :=
  ∀ (s : State) (arg : Operand) (r : Value) (rest : List Value), s.ostack = r :: .none :: rest →
    (∀ d, s.config.ostackDepth = some d → rest.length < d) →
    ∀ i, i = .add arg ∨ i = .subtract arg ∨ i = .multiply arg ∨ i = .divide arg →
      exec i s = .next { s with ostack := .none :: rest, pc := s.pc + 1, report := .continues }

/-- Derived (spec R258, R135, decisions D3 and D5): division by zero is fatal exactly when `Divide` has a left operand
other than `None` and a right operand that coerces to 0; no other instruction raises it. -/
def Obligations.DivideByZeroExactlyOnCoercedZero : Prop :=
  ∀ (i : Instr) (s : State), exec i s = .fault .divideByZero ↔
    ∃ arg l r rest, i = .divide arg ∧ s.ostack = r :: l :: rest ∧ l ≠ .none ∧ conv (variantOf l) r = 0

/-- Derived (spec R259, R136, R137, decision D2): arithmetic overflow is fatal exactly under the policy `fatal`, in the
four arithmetic instructions, when the exact result is outside the left variant's range. -/
def Obligations.ArithmeticOverflowExactlyUnderFatalPolicy : Prop :=
  ∀ (i : Instr) (s : State), exec i s = .fault .arithmeticOverflow ↔
    s.config.overflowPolicy = .fatal ∧
    ∃ arg l r rest x, s.ostack = r :: l :: rest ∧ l ≠ .none ∧ ¬(minOf (variantOf l) ≤ x ∧ x ≤ maxOf (variantOf l)) ∧
      ((i = .add arg ∧ x = num l + conv (variantOf l) r) ∨
       (i = .subtract arg ∧ x = num l - conv (variantOf l) r) ∨
       (i = .multiply arg ∧ x = num l * conv (variantOf l) r) ∨
       (i = .divide arg ∧ conv (variantOf l) r ≠ 0 ∧ x = (num l).tdiv (conv (variantOf l) r)))

/-- Derived (spec R260, R180, R181, R200, decision D13): with stacks that do not exceed their depths, a stack overflow is
raised exactly by a `Push` that has a value and by a `Call`, on a full stack; never by the arithmetic instructions. -/
def Obligations.StackOverflowExactlyOnFullStack : Prop :=
  ∀ (i : Instr) (s : State), WithinDepth s.config.ostackDepth s.ostack →
    WithinDepth s.config.cstackDepth s.cstack →
    (exec i s = .fault .stackOverflow ↔
      (∃ arg, i = .push arg ∧ arg.isInstruction = false ∧ (arg = .none → s.config.pushNone = .pushes)
        ∧ s.config.ostackDepth = some s.ostack.length) ∨
      (∃ arg, i = .call arg ∧ s.config.cstackDepth = some s.cstack.length))

/-! ### Equality and control flow -/

/-- Derived (spec R138 to R140, decision D5): equality is reflexive, is identity on values of one variant, and has `None`
on the left equal to `None` alone. -/
def Obligations.EqualityLaws : Prop :=
  (∀ v, condEqual v v = true) ∧
  (∀ l r, variantOf l = variantOf r → (condEqual l r = true ↔ l = r)) ∧
  (∀ r, condEqual .none r = true ↔ r = .none) ∧
  (∀ l r, l ≠ .none → (condEqual l r = true ↔ num l = conv (variantOf l) r))

/-- Derived (spec R221, R220, decisions D5 and D18): `JumpIfEqual` completes, consuming both values whether it jumps or
not; it jumps exactly when the left value equals the right in the sense of R138, and an operand it does not need is never
looked at. -/
def Obligations.JumpIfEqualComparesAndConsumes : Prop :=
  ∀ (s : State) (l r : Value) (rest : List Value), s.ostack = r :: l :: rest →
    let equal := (l = .none ∧ r = .none) ∨ (l ≠ .none ∧ num l = conv (variantOf l) r)
    (equal → ∀ t, exec (.jumpIfEqual (.instruction t)) s
      = .next { s with ostack := rest, pc := t, report := .continues }) ∧
    (¬ equal → ∀ arg, exec (.jumpIfEqual arg) s
      = .next { s with ostack := rest, pc := s.pc + 1, report := .continues })

/-- Derived (spec R222, R125, decisions D5 and D18): `JumpIfZero` completes, consuming the value whether it jumps or not;
it jumps exactly when the value's number is zero. -/
def Obligations.JumpIfZeroTestsTheWholeNumber : Prop :=
  ∀ (s : State) (v : Value) (rest : List Value), s.ostack = v :: rest →
    (num v = 0 → ∀ t, exec (.jumpIfZero (.instruction t)) s
      = .next { s with ostack := rest, pc := t, report := .continues }) ∧
    (num v ≠ 0 → ∀ arg, exec (.jumpIfZero arg) s
      = .next { s with ostack := rest, pc := s.pc + 1, report := .continues })

/-- Spec R223: `Jump` sets `pc` to the operand's index and changes nothing else; a target past the end is loaded all the
same and the next step fails; any other operand is `InstructionExpected` with nothing changed. -/
def Obligations.JumpSetsTheCounterVerbatim : Prop :=
  ∀ s : State,
    (∀ t, exec (.jump (.instruction t)) s = .next { s with pc := t, report := .continues }) ∧
    (∀ t : Index, s.program.length ≤ t.toNat →
      step { s with pc := t, report := .continues }
        = .next { s with pc := t, report := .errs .instructionOverflow }) ∧
    (∀ arg, arg.isInstruction = false →
      exec (.jump arg) s = .next { s with report := .errs .instructionExpected }) ∧
    (∀ t : Index, encodeRecord (.jump (.instruction t)) = 0x0B :: 0x12 :: wordBytes 8 t.toNat)

/-- Derived (spec R224, decision D19 for the operand that is no `Instruction`): `Call` completes when the call stack has
room, pushing `pc + 1` as a `ReturnAddress` and jumping; with a bad operand the return address stays pushed. -/
def Obligations.CallPushesTheReturnAddressAndJumps : Prop :=
  ∀ s : State, (∀ d, s.config.cstackDepth = some d → s.cstack.length < d) →
    (∀ t, exec (.call (.instruction t)) s
      = .next { s with cstack := .returnAddress (s.pc + 1) :: s.cstack, pc := t, report := .continues }) ∧
    (∀ arg, arg.isInstruction = false → exec (.call arg) s
      = .next { s with cstack := .returnAddress (s.pc + 1) :: s.cstack,
                       report := .errs .instructionExpected })

/-- Derived (spec R225, decisions D7 and D21): `Return` completes when a return address is on top of the call stack,
whatever its operand; the value it checks and finds to be something else is lost; an empty call stack changes nothing. -/
def Obligations.ReturnPopsTheCallStackIntoTheCounter : Prop :=
  ∀ (s : State) (arg : Operand),
    (∀ a rest, s.cstack = .returnAddress a :: rest →
      exec (.ret arg) s = .next { s with cstack := rest, pc := a, report := .continues }) ∧
    (∀ v rest, s.cstack = v :: rest → variantOf v ≠ .returnAddress →
      exec (.ret arg) s = .next { s with cstack := rest, report := .errs .instructionExpected }) ∧
    (s.cstack = [] → exec (.ret arg) s = .next { s with report := .errs .callStackEmpty })

/-- Derived (spec R226, decision D7 for the operand, D27 for the further step): `Exit` returns `Break` with no state change, does so again when stepped again, and nothing else returns
`Break`. The operand is ignored. -/
def Obligations.ExitAloneBreaksAndChangesNothing : Prop :=
  (∀ (s : State) (arg : Operand), exec (.exit arg) s = .next { s with report := .breaks }) ∧
  (∀ (s t : State) (arg : Operand), s.program[s.pc.toNat]? = some (.exit arg) → step s = .next t →
    step t = .next t) ∧
  (∀ s t : State, step s = .next t → t.report = .breaks → ∃ arg, s.program[s.pc.toNat]? = some (.exit arg)) ∧
  encodeRecord (.exit .none) = [0x07, 0x09, 0, 0, 0, 0, 0, 0, 0, 0]

/-- Derived (spec R227, source example S3): a `Call` followed, after steps in which the calls and returns are balanced,
by a `Return` resumes at the instruction after the `Call`, with the call stack as it was before the `Call`. -/
def Obligations.BalancedReturnResumesAfterTheCall : Prop :=
  ∀ (s u v w : State) (k : Index) (arg : Operand) (n : Nat),
    s.program[s.pc.toNat]? = some (.call (.instruction k)) → step s = .next u →
    StaysAbove u.cstack.length n u v → v.cstack.length = u.cstack.length →
    v.program[v.pc.toNat]? = some (.ret arg) → step v = .next w →
    u.pc = k ∧ w.pc = s.pc + 1 ∧ w.cstack = s.cstack

/-- Derived (spec R99, decision D7): the six opcodes that use no operand behave the same for every operand. -/
def Obligations.UnusedOperandPlaysNoPart : Prop :=
  ∀ (s : State) (a b : Operand),
    exec (.add a) s = exec (.add b) s ∧ exec (.subtract a) s = exec (.subtract b) s ∧
    exec (.multiply a) s = exec (.multiply b) s ∧ exec (.divide a) s = exec (.divide b) s ∧
    exec (.exit a) s = exec (.exit b) s ∧ exec (.ret a) s = exec (.ret b) s

/-! ### The errors -/

/-- Spec R251: the complete list of causes of `StackEmpty`. -/
def Obligations.StackEmptyExactlyOnEmptyOperandStack : Prop :=
  ∀ (s : State),
    ((∃ t, step s = .next t ∧ t.report = .errs .stackEmpty) ↔
      ∃ i, s.program[s.pc.toNat]? = some i ∧
        (((i.opcode = .pop ∨ i.opcode = .jumpIfZero) ∧ s.ostack = []) ∨
         ((i.opcode = .add ∨ i.opcode = .subtract ∨ i.opcode = .multiply ∨ i.opcode = .divide
            ∨ i.opcode = .jumpIfEqual) ∧ s.ostack.length < 2))) ∧
    (hostPop s = .error .stackEmpty ↔ s.ostack = []) ∧
    (∀ kind, hostPop s = .error kind → kind = .stackEmpty)

/-- Derived (spec R252, R264, decision D12): the complete list of causes of `InstructionExpected`. The order of the checks
shows in `Call`, which fails fatally before it looks at its operand when the call stack is full. -/
def Obligations.InstructionExpectedExactlyOnMissingTarget : Prop :=
  ∀ (s : State),
    (∃ t, step s = .next t ∧ t.report = .errs .instructionExpected) ↔
      ∃ i, s.program[s.pc.toNat]? = some i ∧
        ((∃ arg, i = .jump arg ∧ arg.isInstruction = false) ∨
         (∃ arg, i = .call arg ∧ arg.isInstruction = false
            ∧ ∀ d, s.config.cstackDepth = some d → s.cstack.length < d) ∨
         (∃ arg l r rest, i = .jumpIfEqual arg ∧ arg.isInstruction = false ∧ s.ostack = r :: l :: rest
            ∧ condEqual l r = true) ∨
         (∃ arg v rest, i = .jumpIfZero arg ∧ arg.isInstruction = false ∧ s.ostack = v :: rest ∧ num v = 0) ∨
         (∃ arg v rest, i = .ret arg ∧ s.cstack = v :: rest ∧ variantOf v ≠ .returnAddress))

/-- Spec R253: `InstructionOverflow` is raised by the fetch exactly when `pc >= PROG_LEN`, with the state unchanged. -/
def Obligations.InstructionOverflowExactlyPastTheEnd : Prop :=
  ∀ s : State,
    ((∃ t, step s = .next t ∧ t.report = .errs .instructionOverflow) ↔ s.program.length ≤ s.pc.toNat) ∧
    (∀ t, step s = .next t → t.report = .errs .instructionOverflow →
      t = { s with report := .errs .instructionOverflow })

/-- Derived (spec R254 and R255, decisions D6 and D12): the complete lists of causes of `ValueExpected`, with the state
unchanged, and of `RegisterExpected`, with no register written. -/
def Obligations.ValueAndRegisterExpectedExactlyOnWrongOperand : Prop :=
  ∀ s : State,
    ((∃ t, step s = .next t ∧ t.report = .errs .valueExpected) ↔
      ∃ arg, s.program[s.pc.toNat]? = some (.push arg) ∧
        (arg.isInstruction = true ∨ (arg = .none ∧ s.config.pushNone = .valueExpected))) ∧
    (∀ t, step s = .next t → t.report = .errs .valueExpected →
      t = { s with report := .errs .valueExpected }) ∧
    ((∃ t, step s = .next t ∧ t.report = .errs .registerExpected) ↔
      ∃ arg, s.program[s.pc.toNat]? = some (.pop arg) ∧ s.ostack ≠ [] ∧ arg.isRegister = false) ∧
    (∀ t, step s = .next t → t.report = .errs .registerExpected → t.regs = s.regs)

/-- Spec R256: `CallStackEmpty` is raised by `Return` on an empty call stack and by nothing else, with the state
unchanged. -/
def Obligations.CallStackEmptyExactlyOnReturn : Prop :=
  ∀ s : State,
    ((∃ t, step s = .next t ∧ t.report = .errs .callStackEmpty) ↔
      s.cstack = [] ∧ ∃ arg, s.program[s.pc.toNat]? = some (.ret arg)) ∧
    (∀ t, step s = .next t → t.report = .errs .callStackEmpty →
      t = { s with report := .errs .callStackEmpty })

/-- Derived (spec R183, R266, decisions D12, D18, D19, D20, D21; the state after an error is the spec's own choice, log
entries 1 and 14): a step that raised an error leaves `pc`, the registers and the Program. In each listed case what was
done before the failure stays done: `Pop` with a bad operand has lost the value, a two-value instruction on one value has
lost it, a taken conditional jump with a bad operand has lost its values, `Call` with a bad operand has its return
address pushed, and a `Return` that finds no return address has lost what it found (in no reachable state, conflict C3).
In every other case both stacks are unchanged. -/
def Obligations.ErrorKeepsAllButTheListedCases : Prop :=
  ∀ (s t : State) (kind : ErrorKind), step s = .next t → t.report = .errs kind →
    let fetched := fun (op : Opcode) => ∃ i, s.program[s.pc.toNat]? = some i ∧ i.opcode = op
    let twoValues := fetched .add ∨ fetched .subtract ∨ fetched .multiply ∨ fetched .divide ∨ fetched .jumpIfEqual
    let popFails := fetched .pop ∧ kind = .registerExpected
    let oneValue := twoValues ∧ kind = .stackEmpty ∧ s.ostack.length = 1
    let equalFails := fetched .jumpIfEqual ∧ kind = .instructionExpected
    let zeroFails := fetched .jumpIfZero ∧ kind = .instructionExpected
    let callFails := fetched .call ∧ kind = .instructionExpected
    let returnFails := fetched .ret ∧ kind = .instructionExpected
    t.pc = s.pc ∧ t.regs = s.regs ∧ t.program = s.program ∧ t.config = s.config ∧
    (popFails → (∃ v, s.ostack = v :: t.ostack) ∧ t.cstack = s.cstack) ∧
    (oneValue → t.ostack = [] ∧ t.cstack = s.cstack) ∧
    (equalFails → (∃ l r, s.ostack = r :: l :: t.ostack) ∧ t.cstack = s.cstack) ∧
    (zeroFails → (∃ v, s.ostack = v :: t.ostack) ∧ t.cstack = s.cstack) ∧
    (callFails → t.ostack = s.ostack ∧ t.cstack = .returnAddress (s.pc + 1) :: s.cstack) ∧
    (returnFails → t.ostack = s.ostack ∧ ∃ v, variantOf v ≠ .returnAddress ∧ s.cstack = v :: t.cstack) ∧
    (¬popFails → ¬oneValue → ¬equalFails → ¬zeroFails → ¬callFails → ¬returnFails →
      t.ostack = s.ostack ∧ t.cstack = s.cstack)

/-- Derived (spec R97): an instruction whose operand suits its opcode never ends in an error about its operand, in a
state of the invariant and with the chosen `PUSH_NONE_OPERAND`. -/
def Obligations.SuitedOperandNeverFailsOnItsKind : Prop :=
  ∀ (s t : State) (i : Instr), Inv s → s.config.pushNone = .pushes → s.program[s.pc.toNat]? = some i →
    i.operandSuits = true → step s = .next t →
    t.report ≠ .errs .instructionExpected ∧ t.report ≠ .errs .valueExpected ∧
    t.report ≠ .errs .registerExpected

/-! ### Rules of the whole machine -/

/-- Derived (spec R37, R177, R220): how a step that answers a next state changes `pc`, over all instructions and outcomes,
and how the host's commands do. -/
def Obligations.ProgramCounterChangesAsTheRuleSays : Prop :=
  (∀ s t : State, step s = .next t →
    ((∃ kind, t.report = .errs kind) → t.pc = s.pc) ∧
    (t.report = .breaks → t.pc = s.pc) ∧
    (t.report = .continues → ∃ i, s.program[s.pc.toNat]? = some i ∧
      match i with
      | .push _ => t.pc = s.pc + 1
      | .pop _ => t.pc = s.pc + 1
      | .add _ => t.pc = s.pc + 1
      | .subtract _ => t.pc = s.pc + 1
      | .multiply _ => t.pc = s.pc + 1
      | .divide _ => t.pc = s.pc + 1
      | .jumpIfEqual arg => ∃ l r rest, s.ostack = r :: l :: rest ∧
          if condEqual l r then arg = .instruction t.pc else t.pc = s.pc + 1
      | .jumpIfZero arg => ∃ v rest, s.ostack = v :: rest ∧
          if num v = 0 then arg = .instruction t.pc else t.pc = s.pc + 1
      | .jump arg => arg = .instruction t.pc
      | .call arg => arg = .instruction t.pc
      | .ret _ => ∃ rest, s.cstack = .returnAddress t.pc :: rest
      | .exit _ => False) ∧
    t.report ≠ .notStepped) ∧
  (∀ (s t : State) (v : Value), hostPush v s = .next t → t.pc = s.pc) ∧
  (∀ (s t : State) (v : Value), hostPop s = .ok (v, t) → t.pc = s.pc) ∧
  (∀ s : State, (hostReset s).pc = 0)

/-- Derived (spec R34, R35): only `Pop` of a register writes a register: a register that a step changed is the one named
by the `Pop` at `pc`, and it holds the value that was on top. -/
def Obligations.OnlyPopWritesARegister : Prop :=
  ∀ (s t : State) (r : Reg), step s = .next t → t.reg r ≠ s.reg r →
    s.program[s.pc.toNat]? = some (.pop (.register r)) ∧ ∃ rest, s.ostack = t.reg r :: rest

/-- Derived (spec R35): no instruction but `Push` of a register and `Pop` of a register reads or writes the bank: with
another bank it does the same, and leaves that bank as it is. -/
def Obligations.OtherInstructionsIgnoreTheBank : Prop :=
  ∀ (s : State) (b : RegBank) (i : Instr),
    (∀ r, i ≠ .push (.register r)) → (∀ r, i ≠ .pop (.register r)) →
    exec i { s with regs := b } = withBank b (exec i s)

/-- Derived (spec R40): only `Call` and `Return` touch the call stack, by one element each. -/
def Obligations.OnlyCallAndReturnTouchTheCallStack : Prop :=
  ∀ s t : State, step s = .next t → t.cstack ≠ s.cstack →
    (∃ arg, s.program[s.pc.toNat]? = some (.call arg) ∧ t.cstack = .returnAddress (s.pc + 1) :: s.cstack) ∨
    (∃ arg v, s.program[s.pc.toNat]? = some (.ret arg) ∧ s.cstack = v :: t.cstack)

/-- Derived (spec R39, R62): a step reaches at most the two top values of the operand stack and adds at most one:
everything below stays where it is. -/
def Obligations.OperandStackIsReachedAtItsTopOnly : Prop :=
  ∀ s t : State, step s = .next t →
    s.ostack.drop 2 <:+ t.ostack ∧ t.ostack.length ≤ s.ostack.length + 1 ∧
    s.ostack.length ≤ t.ostack.length + 2

/-- Derived (spec R38, R40, R41, R44, decision D14): the invariant holds of every constructed block whose Program is
within the length bound, and at reset. -/
def Obligations.InvariantHoldsAfterConstruct : Prop :=
  (∀ (cfg : Config) (p : List Instr), programWellFormed p = true → Inv (State.construct cfg p)) ∧
  Inv State.reset

/-- Derived (spec R38, R40, R41, R224): every step keeps the invariant: the call stack holds only return addresses, each
one past a `Call` of the Program, and neither stack exceeds its depth. -/
def Obligations.EveryStepKeepsTheInvariant : Prop :=
  ∀ s t : State, Inv s → step s = .next t → Inv t

/-- Derived (spec R45, R170, R172, R173, R280): every command of the host and every step of a run in progress keeps the
invariant too, so that it holds of every reachable state; and in every such state the call stack holds only return
addresses (R40), none of them past `PROG_LEN` (R38). -/
def Obligations.EveryCommandKeepsTheInvariant : Prop :=
  (∀ (es : List PortEvent) (p q : Port) (t : State), (∀ s, p.held = some s → Inv s) →
    portRun es p = some q → q.held = some t → Inv t) ∧
  (∀ s : State, Inv s → HoldsOnlyReturnAddresses s.cstack
    ∧ ∀ i, Value.returnAddress i ∈ s.cstack → 1 ≤ i.toNat ∧ i.toNat ≤ s.program.length)

/-! ### The host's commands -/

/-- Derived (spec R172, R173, R180, decision D22 for any variant; R260, decision D13 for the full stack, log entries 5
and 15): the host's `push` and `pop` act on the top of the operand stack and change nothing else of the block; `push` of
any value on a full stack is the fatal `StackOverflow`, `pop` of an empty one is `StackEmpty`. -/
def Obligations.HostPushAndPopActOnTheTop : Prop :=
  ∀ s : State,
    (∀ v, (∀ d, s.config.ostackDepth = some d → s.ostack.length < d) →
      hostPush v s = .next { s with ostack := v :: s.ostack, report := .notStepped }) ∧
    (∀ v d, s.config.ostackDepth = some d → s.ostack.length = d → hostPush v s = .fault .stackOverflow) ∧
    (∀ v rest, s.ostack = v :: rest →
      perform .pop s = (.ready { s with ostack := rest, report := .notStepped }, some (.value v))) ∧
    (s.ostack = [] → perform .pop s = (.ready { s with report := .notStepped }, some (.error .stackEmpty)))

/-- Derived (spec R178, R184, decision D26 for the fuel): `run` succeeds exactly when some steps that continue lead to
an `Exit`, within the fuel; the final state is the state at that `Exit`. -/
def Obligations.RunSucceedsExactlyAtExit : Prop :=
  ∀ (fuel : Nat) (s t : State), run fuel s = .success t ↔
    ∃ n u arg, n < fuel ∧ ContinuesTo n s u ∧ u.program[u.pc.toNat]? = some (.exit arg)
      ∧ t = { u with report := .breaks }

/-- Derived (spec R178, R289, decision D26): more fuel never changes how a finished `run` ended. -/
def Obligations.MoreFuelKeepsAFinishedRun : Prop :=
  ∀ (fuel more : Nat) (s : State), (∀ t, run fuel s ≠ .stillRunning t) → run (fuel + more) s = run fuel s

/-- Derived (spec R170, R186, R257, R286, decision D22): the port accepts a command exactly when none is in progress and
the block lives; a `run` is in progress until it completes, and every other command completes at once, with its outcome,
and leaves the port ready or the block dead. -/
def Obligations.PortAcceptsCommandsOnlyWhenReady : Prop :=
  (∀ (c : Command) (p : Port), (∃ x, portStep (.issue c) p = some x) ↔ ∃ s, p = .ready s) ∧
  (∀ p : Port, (∃ x, portStep .work p = some x) ↔ ∃ s, p = .running s) ∧
  (∀ s : State, portStep (.issue .run) (.ready s) = some (.running s, none)) ∧
  (∀ (c : Command) (s : State), c ≠ .run → ∃ q a, portStep (.issue c) (.ready s) = some (q, some a)
    ∧ ((∃ t, q = .ready t ∧ ∀ kind, a ≠ .fatal kind) ∨ (∃ kind, q = .dead kind ∧ a = .fatal kind)))

/-- Derived (spec R178, R289, decision D26): a `run` in progress goes on while its steps continue, and completes only at
an `Exit`, at an error or at a fatal condition, with that outcome and the state of its last step. -/
def Obligations.RunInProgressEndsOnlyAtExitOrFailure : Prop :=
  ∀ (s : State) (q : Port) (a : Option Reply), portStep .work (.running s) = some (q, a) →
    (a = none → ∃ t, step s = .next t ∧ t.report = .continues ∧ q = .running t) ∧
    (a ≠ none →
      (a = some .success ∧ (∃ arg, s.program[s.pc.toNat]? = some (.exit arg))
        ∧ q = .ready { s with report := .notStepped }) ∨
      (∃ t kind, step s = .next t ∧ t.report = .errs kind ∧ a = some (.error kind)
        ∧ q = .ready { t with report := .notStepped }) ∨
      (∃ kind, step s = .fault kind ∧ a = some (.fatal kind) ∧ q = .dead kind))

/-- Derived (spec R178, R289, decision D26; the fuel is the model's, log entry 17): a `run` completes at the port exactly
when `run` under some fuel has an end, and in the same state or failure; while it has none under any fuel, the port stays
busy for ever. -/
def Obligations.PortRunEndsAsFueledRunDoes : Prop :=
  ∀ s : State,
    let after := fun (n : Nat) => portRun (.issue .run :: List.replicate n .work) (.ready s)
    (∀ t, (∃ n, after n = some (.ready t)) ↔
      ∃ fuel u, t = { u with report := .notStepped }
        ∧ (run fuel s = .success u ∨ ∃ kind, run fuel s = .error kind u)) ∧
    (∀ kind, (∃ n, after n = some (.dead kind)) ↔ ∃ fuel, run fuel s = .fatal kind) ∧
    ((∀ fuel, ∃ t, run fuel s = .stillRunning t) → ∀ n, ∃ t, after n = some (.running t))

/-- Derived (spec R30, R43, decision D16): a step is the step of the block's four items, with the bound Program and the
parameters as arguments, and it returns its outcome beside the new block; no command leaves an outcome in the state it
leaves ready. -/
def Obligations.StepIsTheBlocksStep : Prop :=
  (∀ s : State, step s = (s.toBlock.step s.config s.program).result s) ∧
  (∀ (c : Command) (s t : State), (perform c s).1 = .ready t → t.report = .notStepped) ∧
  (∀ s t : State, (runOnce s).1 = .ready t → t.report = .notStepped)
end

