-- ==== Sys2Proof/Laws/Alu.lean ====
section
/-! SUPPORT. The laws of the ALU: numbers lie in their variant's range, carrying a number wraps it, and converting a
value into its own variant changes nothing. -/

namespace Sys2Proof.Machine

theorem umod_eq_toNat (N : Nat) (n : Int) : umod N n = ((BitVec.ofInt N n).toNat : Int) := by
  simp only [umod, BitVec.toNat_ofInt]
  rw [Int.toNat_of_nonneg (Int.emod_nonneg _ (by positivity))]
  norm_cast

theorem smod_eq_toInt (N : Nat) (n : Int) : smod N n = (BitVec.ofInt N n).toInt := by
  simp [smod, BitVec.toInt_ofInt]

/-- Carrying an integer carries `wrap_T` of it (spec R127 step 6). -/
theorem num_carry {T : Variant} (hT : T ≠ .none) (n : Int) : num (carry T n) = wrap T n := by
  cases T <;> first
    | exact absurd rfl hT
    | (simp only [num, carry, wrap, isSigned, widthOf, umod_eq_toNat, smod_eq_toInt]; rfl)

@[simp] theorem variantOf_carry (T : Variant) (n : Int) : variantOf (carry T n) = T := by
  cases T <;> rfl

/-- A value carries its own number. -/
@[simp] theorem carry_num (v : Value) : carry (variantOf v) (num v) = v := by
  cases v <;> simp [carry, variantOf, num, BitVec.ofInt_toInt]

/-- Two values of one variant with one number are the same value. -/
theorem eq_of_variantOf_of_num {v w : Value} (hT : variantOf v = variantOf w) (hn : num v = num w) : v = w := by
  rw [← carry_num v, ← carry_num w, hT, hn]

theorem variantOf_eq_none_iff {v : Value} : variantOf v = .none ↔ v = .none := by
  cases v <;> simp [variantOf]

/-- Converting a value into its own variant yields its number (spec R122, `S = T`). -/
@[simp] theorem conv_self (v : Value) : conv (variantOf v) v = num v := by
  by_cases h : v = .none
  · subst h; decide
  · rw [conv, ← num_carry (mt variantOf_eq_none_iff.1 h), carry_num]

theorem wrap_num_self (v : Value) : wrap (variantOf v) (num v) = num v := conv_self v

/-- A 64-bit unsigned representation is zero exactly when the number is (spec R125). -/
theorem toU64_eq_zero_iff (v : Value) : toU64 v = 0 ↔ num v = 0 := by
  cases v with
  | none => decide
  | uint8 n | uint16 n | uint32 n | uint64 n | returnAddress n =>
    have := n.isLt
    simp only [toU64, conv, wrap, isSigned, widthOf, umod, num, Bool.false_eq_true, if_false]
    omega
  | int8 n | int16 n | int32 n | int64 n =>
    have h1 := BitVec.le_toInt n
    have h2 := BitVec.toInt_lt (x := n)
    simp only [toU64, conv, wrap, isSigned, widthOf, umod, num, Bool.false_eq_true, if_false]
    omega

theorem inRange_iff {T : Variant} {n : Int} : inRange T n = true ↔ minOf T ≤ n ∧ n ≤ maxOf T := by
  simp [inRange]

/-- A value's number is in its variant's range (spec R31). -/
theorem inRange_num (v : Value) : inRange (variantOf v) (num v) = true := by
  rw [inRange_iff]
  cases v with
  | none => decide
  | uint8 n | uint16 n | uint32 n | uint64 n | returnAddress n =>
    have := n.isLt
    simp only [minOf, maxOf, variantOf, isSigned, widthOf, num, Bool.false_eq_true, if_false]
    omega
  | int8 n | int16 n | int32 n | int64 n =>
    have h1 := BitVec.le_toInt n
    have h2 := BitVec.toInt_lt (x := n)
    simp only [minOf, maxOf, variantOf, isSigned, widthOf, num, if_true]
    omega

/-- Wrapping an integer that is in range leaves it (spec R131 to R133). -/
theorem wrap_of_inRange {T : Variant} {n : Int} (h : inRange T n = true) : wrap T n = n := by
  rw [inRange_iff] at h
  cases T with
  | none | uint8 | uint16 | uint32 | uint64 | returnAddress =>
    simp only [minOf, maxOf, wrap, isSigned, widthOf, umod, Bool.false_eq_true, if_false] at h ⊢
    exact Int.emod_eq_of_lt h.1 (by omega)
  | int8 | int16 | int32 | int64 =>
    simp only [minOf, maxOf, wrap, isSigned, widthOf, smod, if_true] at h ⊢
    apply Int.bmod_eq_of_le <;> simp <;> omega

/-! ### All that `arith` can do -/

theorem arith_none (policy : OverflowPolicy) (op : ArithOp) (r : Value) : arith policy op .none r = .ok .none := rfl

/-- `arith` with an integer or `ReturnAddress` on the left: three outcomes, in the order of spec R127. -/
theorem arith_cases (policy : OverflowPolicy) (op : ArithOp) {l : Value} (hl : l ≠ .none) (r : Value) :
    (op = .div ∧ conv (variantOf l) r = 0 ∧ arith policy op l r = .error .divideByZero) ∨
    (¬(op = .div ∧ conv (variantOf l) r = 0) ∧ policy = .fatal
      ∧ inRange (variantOf l) (exactResult op (num l) (conv (variantOf l) r)) = false
      ∧ arith policy op l r = .error .arithmeticOverflow) ∨
    (¬(op = .div ∧ conv (variantOf l) r = 0)
      ∧ (policy = .wrap ∨ inRange (variantOf l) (exactResult op (num l) (conv (variantOf l) r)) = true)
      ∧ arith policy op l r
          = .ok (carry (variantOf l) (exactResult op (num l) (conv (variantOf l) r)))) := by
  unfold arith
  rw [if_neg hl]
  by_cases hz : op = .div ∧ conv (variantOf l) r = 0
  · exact .inl ⟨hz.1, hz.2, by rw [if_pos hz]⟩
  · rw [if_neg hz]
    cases policy <;>
      cases hr : inRange (variantOf l) (exactResult op (num l) (conv (variantOf l) r)) <;> simp [hz]

/-- Whatever `arith` yields has the left operand's variant (spec R129). -/
theorem variantOf_of_arith {policy : OverflowPolicy} {op : ArithOp} {l r v : Value}
    (h : arith policy op l r = .ok v) : variantOf v = variantOf l := by
  by_cases hl : l = .none
  · subst hl
    rw [arith_none] at h
    cases h; rfl
  · rcases arith_cases policy op hl r with ⟨_, _, h'⟩ | ⟨_, _, _, h'⟩ | ⟨_, _, h'⟩ <;> rw [h'] at h <;> cases h
    simp

/-! ### Conditions -/

theorem condZero_eq (v : Value) : condZero v = decide (num v = 0) := by
  simp [condZero, toU64_eq_zero_iff]

theorem condEqual_none (r : Value) : condEqual .none r = decide (r = .none) := rfl

theorem condEqual_of_ne {l : Value} (h : l ≠ .none) (r : Value) :
    condEqual l r = decide (num l = conv (variantOf l) r) := by
  simp [condEqual, h]

end Sys2Proof.Machine
end

