-- ==== Sys2Proof/Laws/Decode.lean ====
section
/-! SUPPORT. The laws of bytes and numbers, and the lengths and tags of what the encoder writes. -/

namespace Sys2Proof

@[simp] theorem wordBytes_length (k w : Nat) : (wordBytes k w).length = k := by
  induction k generalizing w with
  | zero => rfl
  | succ k ih => simp [wordBytes, ih]

/-- The low `k` bytes of the low `n` bytes of a number. -/
theorem wordBytes_take (n : Nat) {k : Nat} (h : k ≤ n) (w : Nat) : (wordBytes n w).take k = wordBytes k w := by
  induction k generalizing n w with
  | zero => simp [wordBytes]
  | succ k ih =>
    obtain ⟨n, rfl⟩ : ∃ m, n = m + 1 := ⟨n - 1, by omega⟩
    simp [wordBytes, ih n (by omega)]

/-- Assembling the low `k` bytes of a number gives it modulo `256^k`. -/
theorem leNat_wordBytes (k w : Nat) : leNat (wordBytes k w) = w % 256 ^ k := by
  induction k generalizing w with
  | zero => simp [wordBytes, leNat, Nat.mod_one]
  | succ k ih =>
    have h : w % 256 ^ (k + 1) = w % 256 + 256 * (w / 256 % 256 ^ k) := by
      rw [Nat.pow_succ', Nat.mod_mul]
    simp [wordBytes, leNat, ih, h]

/-- A number read from bytes is below `256^k`. -/
theorem leNat_lt (bs : List Byte) : leNat bs < 256 ^ bs.length := by
  induction bs with
  | nil => simp [leNat]
  | cons b bs ih =>
    have := b.isLt
    simp only [leNat, List.length_cons, Nat.pow_succ']
    omega

/-- The bytes of an assembled number are the bytes it was assembled from. -/
theorem wordBytes_leNat (bs : List Byte) : wordBytes bs.length (leNat bs) = bs := by
  induction bs with
  | nil => rfl
  | cons b bs ih =>
    have hb := b.isLt
    have hd : (b.toNat + 256 * leNat bs) / 256 = leNat bs := by omega
    have hm : BitVec.ofNat 8 (b.toNat + 256 * leNat bs) = b := by
      apply BitVec.eq_of_toNat_eq
      simp only [BitVec.toNat_ofNat]
      omega
    simp [wordBytes, leNat, hd, hm, ih]

/-- The bytes above a small number are zero. -/
theorem wordBytes_zero (k : Nat) : wordBytes k 0 = List.replicate k 0 := by
  induction k with
  | zero => rfl
  | succ k ih => simp [wordBytes, ih, List.replicate_succ]

theorem encodeOperand_length (arg : Operand) : (encodeOperand arg).length = 9 := by
  simp [encodeOperand]

theorem encodeRecord_length (i : Instr) : (encodeRecord i).length = recordLength := by
  simp [encodeRecord, encodeOperand, recordLength]

/-- The opcode decoder gives back the opcode whose tag it reads. -/
theorem decodeOpcode_tag (op : Opcode) : decodeOpcode op.tag = .ok op := by
  cases op <;> rfl

/-- An opcode byte decodes exactly when it is at most 11 (spec R88), and then to the opcode with that tag. -/
theorem decodeOpcode_cases (b : Byte) :
    (b.toNat ≤ 11 ∧ ∃ op, op.tag = b ∧ decodeOpcode b = .ok op) ∨
    (11 < b.toNat ∧ decodeOpcode b = .error (.badOpcode b)) := by
  by_cases h : b.toNat ≤ 11
  · refine .inl ⟨h, ?_⟩
    obtain ⟨n, hn, rfl⟩ : ∃ n, n ≤ 11 ∧ b = BitVec.ofNat 8 n := ⟨b.toNat, h, by simp⟩
    have key : ∀ op : Opcode, op.tag = BitVec.ofNat 8 n →
        ∃ op : Opcode, op.tag = BitVec.ofNat 8 n ∧ decodeOpcode (BitVec.ofNat 8 n) = .ok op :=
      fun op hop => ⟨op, hop, hop ▸ decodeOpcode_tag op⟩
    interval_cases n
    · exact key .push rfl
    · exact key .pop rfl
    · exact key .add rfl
    · exact key .subtract rfl
    · exact key .multiply rfl
    · exact key .divide rfl
    · exact key .jumpIfEqual rfl
    · exact key .exit rfl
    · exact key .jumpIfZero rfl
    · exact key .call rfl
    · exact key .ret rfl
    · exact key .jump rfl
  · refine .inr ⟨by omega, ?_⟩
    unfold decodeOpcode
    split <;> first | omega | rfl

end Sys2Proof
end

