-- ==== Sys2Proof/Laws/State.lean ====
section
/-! SUPPORT. One lemma per field per update of the state, true by rfl; the laws of the register bank; the fields of
the constructed state. -/

namespace Sys2Proof.Machine

@[simp] theorem State.setPc_program (s : State) (t : Index) : (s.setPc t).program = s.program := rfl
@[simp] theorem State.setPc_config (s : State) (t : Index) : (s.setPc t).config = s.config := rfl
@[simp] theorem State.setPc_pc (s : State) (t : Index) : (s.setPc t).pc = t := rfl
@[simp] theorem State.setPc_regs (s : State) (t : Index) : (s.setPc t).regs = s.regs := rfl
@[simp] theorem State.setPc_ostack (s : State) (t : Index) : (s.setPc t).ostack = s.ostack := rfl
@[simp] theorem State.setPc_cstack (s : State) (t : Index) : (s.setPc t).cstack = s.cstack := rfl
@[simp] theorem State.setPc_report (s : State) (t : Index) : (s.setPc t).report = s.report := rfl

@[simp] theorem State.setRegs_program (s : State) (b : RegBank) : (s.setRegs b).program = s.program := rfl
@[simp] theorem State.setRegs_config (s : State) (b : RegBank) : (s.setRegs b).config = s.config := rfl
@[simp] theorem State.setRegs_pc (s : State) (b : RegBank) : (s.setRegs b).pc = s.pc := rfl
@[simp] theorem State.setRegs_regs (s : State) (b : RegBank) : (s.setRegs b).regs = b := rfl
@[simp] theorem State.setRegs_ostack (s : State) (b : RegBank) : (s.setRegs b).ostack = s.ostack := rfl
@[simp] theorem State.setRegs_cstack (s : State) (b : RegBank) : (s.setRegs b).cstack = s.cstack := rfl
@[simp] theorem State.setRegs_report (s : State) (b : RegBank) : (s.setRegs b).report = s.report := rfl

@[simp] theorem State.setOstack_program (s : State) (st : List Value) : (s.setOstack st).program = s.program := rfl
@[simp] theorem State.setOstack_config (s : State) (st : List Value) : (s.setOstack st).config = s.config := rfl
@[simp] theorem State.setOstack_pc (s : State) (st : List Value) : (s.setOstack st).pc = s.pc := rfl
@[simp] theorem State.setOstack_regs (s : State) (st : List Value) : (s.setOstack st).regs = s.regs := rfl
@[simp] theorem State.setOstack_ostack (s : State) (st : List Value) : (s.setOstack st).ostack = st := rfl
@[simp] theorem State.setOstack_cstack (s : State) (st : List Value) : (s.setOstack st).cstack = s.cstack := rfl
@[simp] theorem State.setOstack_report (s : State) (st : List Value) : (s.setOstack st).report = s.report := rfl

@[simp] theorem State.setCstack_program (s : State) (st : List Value) : (s.setCstack st).program = s.program := rfl
@[simp] theorem State.setCstack_config (s : State) (st : List Value) : (s.setCstack st).config = s.config := rfl
@[simp] theorem State.setCstack_pc (s : State) (st : List Value) : (s.setCstack st).pc = s.pc := rfl
@[simp] theorem State.setCstack_regs (s : State) (st : List Value) : (s.setCstack st).regs = s.regs := rfl
@[simp] theorem State.setCstack_ostack (s : State) (st : List Value) : (s.setCstack st).ostack = s.ostack := rfl
@[simp] theorem State.setCstack_cstack (s : State) (st : List Value) : (s.setCstack st).cstack = st := rfl
@[simp] theorem State.setCstack_report (s : State) (st : List Value) : (s.setCstack st).report = s.report := rfl

@[simp] theorem State.setReport_program (s : State) (r : StepReport) : (s.setReport r).program = s.program := rfl
@[simp] theorem State.setReport_config (s : State) (r : StepReport) : (s.setReport r).config = s.config := rfl
@[simp] theorem State.setReport_pc (s : State) (r : StepReport) : (s.setReport r).pc = s.pc := rfl
@[simp] theorem State.setReport_regs (s : State) (r : StepReport) : (s.setReport r).regs = s.regs := rfl
@[simp] theorem State.setReport_ostack (s : State) (r : StepReport) : (s.setReport r).ostack = s.ostack := rfl
@[simp] theorem State.setReport_cstack (s : State) (r : StepReport) : (s.setReport r).cstack = s.cstack := rfl
@[simp] theorem State.setReport_report (s : State) (r : StepReport) : (s.setReport r).report = r := rfl

@[simp] theorem State.setReg_reg_bank (s : State) (r : Reg) (v : Value) : (s.setReg r v).regs = s.regs.set r v := rfl
@[simp] theorem State.setReg_program (s : State) (r : Reg) (v : Value) : (s.setReg r v).program = s.program := rfl
@[simp] theorem State.setReg_config (s : State) (r : Reg) (v : Value) : (s.setReg r v).config = s.config := rfl
@[simp] theorem State.setReg_pc (s : State) (r : Reg) (v : Value) : (s.setReg r v).pc = s.pc := rfl
@[simp] theorem State.setReg_ostack (s : State) (r : Reg) (v : Value) : (s.setReg r v).ostack = s.ostack := rfl
@[simp] theorem State.setReg_cstack (s : State) (r : Reg) (v : Value) : (s.setReg r v).cstack = s.cstack := rfl
@[simp] theorem State.setReg_report (s : State) (r : Reg) (v : Value) : (s.setReg r v).report = s.report := rfl

/-- Replacing the operand stack by itself changes nothing. -/
theorem State.setOstack_of_eq {s : State} {st : List Value} (h : s.ostack = st) : s.setOstack st = s := by
  subst h; rfl

/-! ### The register bank -/

@[simp] theorem RegBank.get_set_self (b : RegBank) (r : Reg) (v : Value) : (b.set r v).get r = v := by
  cases r <;> rfl

theorem RegBank.get_set_ne (b : RegBank) {r q : Reg} (h : q ≠ r) (v : Value) : (b.set r v).get q = b.get q := by
  cases r <;> cases q <;> first | rfl | exact absurd rfl h

theorem RegBank.get_set (b : RegBank) (r q : Reg) (v : Value) :
    (b.set r v).get q = if q = r then v else b.get q := by
  by_cases h : q = r
  · simp [h]
  · simp [h, RegBank.get_set_ne b h]

@[simp] theorem RegBank.set_get_self (b : RegBank) (r : Reg) : b.set r (b.get r) = b := by
  cases r <;> rfl

/-- Two banks that agree on every register are equal. -/
theorem RegBank.ext_get {a b : RegBank} (h : ∀ r, a.get r = b.get r) : a = b := by
  obtain ⟨a1, a2, a3, a4, a5, a6, a7, a8, a9⟩ := a
  obtain ⟨b1, b2, b3, b4, b5, b6, b7, b8, b9⟩ := b
  have h1 : a1 = b1 := h .register1
  have h2 : a2 = b2 := h .register2
  have h3 : a3 = b3 := h .register3
  have h4 : a4 = b4 := h .register4
  have h5 : a5 = b5 := h .register5
  have h6 : a6 = b6 := h .register6
  have h7 : a7 = b7 := h .register7
  have h8 : a8 = b8 := h .register8
  have h9 : a9 = b9 := h .register9
  subst h1 h2 h3 h4 h5 h6 h7 h8 h9
  rfl

@[simp] theorem RegBank.cleared_get (r : Reg) : RegBank.cleared.get r = .none := by
  cases r <;> rfl

/-! ### The constructed state -/

@[simp] theorem State.construct_program (cfg : Config) (p : List Instr) : (State.construct cfg p).program = p := rfl
@[simp] theorem State.construct_config (cfg : Config) (p : List Instr) : (State.construct cfg p).config = cfg := rfl
@[simp] theorem State.construct_pc (cfg : Config) (p : List Instr) : (State.construct cfg p).pc = 0 := rfl
@[simp] theorem State.construct_regs (cfg : Config) (p : List Instr) : (State.construct cfg p).regs = RegBank.cleared := rfl
@[simp] theorem State.construct_ostack (cfg : Config) (p : List Instr) : (State.construct cfg p).ostack = [] := rfl
@[simp] theorem State.construct_cstack (cfg : Config) (p : List Instr) : (State.construct cfg p).cstack = [] := rfl
@[simp] theorem State.construct_report (cfg : Config) (p : List Instr) : (State.construct cfg p).report = .notStepped := rfl

end Sys2Proof.Machine
end

