-- ==== Sys2Proof/Laws/Ops.lean ====
section
/-! SUPPORT. One law per shared operation, saying all that it can do. -/

namespace Sys2Proof.Machine

/-! ### Outcomes -/

@[simp] theorem raiseError_eq (kind : ErrorKind) (s : State) :
    raiseError kind s = .next (s.setReport (.errs kind)) := rfl

@[simp] theorem raiseFatal_eq (kind : Fault) : raiseFatal kind = .fault kind := rfl

@[simp] theorem advance_eq (s : State) :
    advance s = .next ((s.setPc (s.pc + 1)).setReport .continues) := rfl

@[simp] theorem jumpTo_eq (t : Index) (s : State) :
    jumpTo t s = .next ((s.setPc t).setReport .continues) := rfl

@[simp] theorem returnBreak_eq (s : State) : returnBreak s = .next (s.setReport .breaks) := rfl

@[simp] theorem orRaise_ok {α : Type} (a : α) (s : State) (k : α → Result) :
    orRaise (.ok a) s k = k a := rfl

@[simp] theorem orRaise_error {α : Type} (kind : ErrorKind) (s : State) (k : α → Result) :
    orRaise (.error kind) s k = .next (s.setReport (.errs kind)) := rfl

@[simp] theorem orFatal_ok {α : Type} (a : α) (k : α → Result) : orFatal (.ok a) k = k a := rfl

@[simp] theorem orFatal_error {α : Type} (kind : Fault) (k : α → Result) :
    orFatal (.error kind) k = .fault kind := rfl

/-! ### Stacks -/

@[simp] theorem stackFull_none (n : Nat) : stackFull none n = false := rfl

@[simp] theorem stackFull_some (d n : Nat) : stackFull (some d) n = decide (d ≤ n) := rfl

/-- A stack is full exactly when it has a depth and has reached it. -/
theorem stackFull_eq_true_iff {depth : Option Nat} {n : Nat} :
    stackFull depth n = true ↔ ∃ d, depth = some d ∧ d ≤ n := by
  cases depth <;> simp

/-- A stack that is not full has room for one more value. -/
theorem stackFull_eq_false_iff {depth : Option Nat} {n : Nat} :
    stackFull depth n = false ↔ ∀ d, depth = some d → n < d := by
  cases depth <;> simp

/-- A shorter stack is not full when a longer one fits the depth. -/
theorem stackFull_eq_false_of_fits {depth : Option Nat} {n m : Nat} (h : ∀ d, depth = some d → m ≤ d)
    (hn : n < m) : stackFull depth n = false :=
  stackFull_eq_false_iff.2 fun d hd => lt_of_lt_of_le hn (h d hd)

theorem opush_of_room {s : State} (v : Value)
    (h : stackFull s.config.ostackDepth s.ostack.length = false) :
    opush v s = .ok (s.setOstack (v :: s.ostack)) := by
  simp [opush, h]

theorem opush_of_full {s : State} (v : Value)
    (h : stackFull s.config.ostackDepth s.ostack.length = true) :
    opush v s = .error .stackOverflow := by
  simp [opush, h]

/-- All that `opush` can do. -/
theorem opush_cases (v : Value) (s : State) :
    (stackFull s.config.ostackDepth s.ostack.length = false
        ∧ opush v s = .ok (s.setOstack (v :: s.ostack))) ∨
    (stackFull s.config.ostackDepth s.ostack.length = true ∧ opush v s = .error .stackOverflow) := by
  cases h : stackFull s.config.ostackDepth s.ostack.length
  · exact .inl ⟨rfl, opush_of_room v h⟩
  · exact .inr ⟨rfl, opush_of_full v h⟩

theorem cpush_of_room {s : State} (v : Value)
    (h : stackFull s.config.cstackDepth s.cstack.length = false) :
    cpush v s = .ok (s.setCstack (v :: s.cstack)) := by
  simp [cpush, h]

theorem cpush_of_full {s : State} (v : Value)
    (h : stackFull s.config.cstackDepth s.cstack.length = true) :
    cpush v s = .error .stackOverflow := by
  simp [cpush, h]

/-- All that `cpush` can do. -/
theorem cpush_cases (v : Value) (s : State) :
    (stackFull s.config.cstackDepth s.cstack.length = false
        ∧ cpush v s = .ok (s.setCstack (v :: s.cstack))) ∨
    (stackFull s.config.cstackDepth s.cstack.length = true ∧ cpush v s = .error .stackOverflow) := by
  cases h : stackFull s.config.cstackDepth s.cstack.length
  · exact .inl ⟨rfl, cpush_of_room v h⟩
  · exact .inr ⟨rfl, cpush_of_full v h⟩

theorem opop_of_nil {s : State} (h : s.ostack = []) : opop s = .error .stackEmpty := by
  simp [opop, h]

theorem opop_of_cons {s : State} {v : Value} {rest : List Value} (h : s.ostack = v :: rest) :
    opop s = .ok (v, s.setOstack rest) := by
  simp [opop, h]

theorem cpop_of_nil {s : State} (h : s.cstack = []) : cpop s = .error .callStackEmpty := by
  simp [cpop, h]

theorem cpop_of_cons {s : State} {v : Value} {rest : List Value} (h : s.cstack = v :: rest) :
    cpop s = .ok (v, s.setCstack rest) := by
  simp [cpop, h]

/-- `withTwo` on an empty stack: nothing but the report changes. -/
theorem withTwo_of_nil {s : State} {k : Value → Value → State → Result} (h : s.ostack = []) :
    withTwo s k = .next (s.setReport (.errs .stackEmpty)) := by
  simp [withTwo, opop_of_nil h]

/-- `withTwo` on one value: that value is lost. -/
theorem withTwo_of_one {s : State} {k : Value → Value → State → Result} {v : Value} (h : s.ostack = [v]) :
    withTwo s k = .next ((s.setOstack []).setReport (.errs .stackEmpty)) := by
  rw [withTwo, opop_of_cons h]
  rfl

/-- `withTwo` on two values: the top is the right operand, the one below the left. -/
theorem withTwo_of_two {s : State} {k : Value → Value → State → Result} {l r : Value} {rest : List Value}
    (h : s.ostack = r :: l :: rest) : withTwo s k = k l r (s.setOstack rest) := by
  rw [withTwo, opop_of_cons h]
  rfl

/-- The three shapes of a stack that a two-value instruction tells apart. -/
theorem ostack_shape (st : List Value) : st = [] ∨ (∃ v, st = [v]) ∨ ∃ r l rest, st = r :: l :: rest := by
  match st with
  | [] => exact .inl rfl
  | [v] => exact .inr (.inl ⟨v, rfl⟩)
  | r :: l :: rest => exact .inr (.inr ⟨r, l, rest, rfl⟩)

/-! ### Operands -/

@[simp] theorem argTarget_instruction (i : Index) : argTarget (.instruction i) = .ok i := rfl

/-- All that `argTarget` can do. -/
theorem argTarget_cases (arg : Operand) :
    (∃ i, arg = .instruction i ∧ argTarget arg = .ok i) ∨
    (arg.isInstruction = false ∧ argTarget arg = .error .instructionExpected) := by
  cases arg <;> simp [argTarget, Operand.isInstruction]

/-- All that `argRegister` can do. -/
theorem argRegister_cases (arg : Operand) :
    (∃ r, arg = .register r ∧ argRegister arg = .ok r) ∨
    (arg.isRegister = false ∧ argRegister arg = .error .registerExpected) := by
  cases arg <;> simp [argRegister, Operand.isRegister]

/-- An operand fails to yield a value with `ValueExpected` alone. -/
theorem argValue_cases (arg : Operand) (s : State) :
    (∃ v, argValue arg s = .ok v) ∨ argValue arg s = .error .valueExpected := by
  cases arg <;> simp [argValue]
  cases s.config.pushNone <;> simp

/-! ### Placing an instruction -/

/-- The instruction is at its index. -/
theorem placeAt_at (i : Instr) (k : Nat) (p : List Instr) : (placeAt i k p)[k]? = some i := by
  have h : (p.take k ++ List.replicate (k - p.length) (Instr.exit Operand.none)).length = k := by
    simp; omega
  rw [placeAt, List.getElem?_append_right (by omega), h]
  simp

/-- Every other index of the program is as before. -/
theorem placeAt_ne (i : Instr) {k j : Nat} (p : List Instr) (hj : j < p.length) (h : j ≠ k) :
    (placeAt i k p)[j]? = p[j]? := by
  have hl : (p.take k ++ List.replicate (k - p.length) (Instr.exit Operand.none)).length = k := by
    simp; omega
  rcases Nat.lt_or_gt_of_ne h with hlt | hgt
  · rw [placeAt, List.getElem?_append_left (by omega), List.getElem?_append_left (by simp; omega),
      List.getElem?_take_of_lt hlt]
  · rw [placeAt, List.getElem?_append_right (by omega), hl]
    obtain ⟨m, rfl⟩ : ∃ m, j = k + 1 + m := ⟨j - (k + 1), by omega⟩
    rw [show k + 1 + m - k = m + 1 by omega]
    simp

/-- All of the program after an instruction was placed in it. -/
theorem placeAt_get (i : Instr) (k j : Nat) (p : List Instr) :
    (placeAt i k p)[j]? =
      if j = k then some i else if j < p.length then p[j]? else if j < k then some (.exit .none) else none := by
  by_cases hk : j = k
  · rw [if_pos hk, hk]; exact placeAt_at i k p
  by_cases hp : j < p.length
  · rw [if_neg hk, if_pos hp]; exact placeAt_ne i p hp hk
  rw [if_neg hk, if_neg hp]
  by_cases hj : j < k
  · have ht : (p.take k).length = p.length := by simp; omega
    rw [if_pos hj, placeAt, List.append_assoc, List.getElem?_append_right (by omega), ht,
      List.getElem?_append_left (by simp; omega), List.getElem?_replicate_of_lt (by omega)]
  · rw [if_neg hj, List.getElem?_eq_none]
    simp [placeAt]; omega

end Sys2Proof.Machine
end

