-- ==== Sys2Proof/Laws/Exec.lean ====
section
/-! SUPPORT. One inversion law per instruction: all the outcomes it has, with the condition of each. Every later fact
about a step is a case analysis over these. -/

namespace Sys2Proof.Machine

/-- The state after an instruction that left the operand stack as `st` and advanced. -/
abbrev State.advanced (s : State) (st : List Value) : State :=
  ((s.setOstack st).setPc (s.pc + 1)).setReport .continues

/-- The state after an error that left the operand stack as `st`. -/
abbrev State.erred (s : State) (st : List Value) (kind : ErrorKind) : State :=
  (s.setOstack st).setReport (.errs kind)

theorem execPush_cases (arg : Operand) (s : State) :
    (∃ v, argValue arg s = .ok v ∧ stackFull s.config.ostackDepth s.ostack.length = false
      ∧ execPush arg s = .next (s.advanced (v :: s.ostack))) ∨
    (∃ v, argValue arg s = .ok v ∧ stackFull s.config.ostackDepth s.ostack.length = true
      ∧ execPush arg s = .fault .stackOverflow) ∨
    (argValue arg s = .error .valueExpected
      ∧ execPush arg s = .next (s.setReport (.errs .valueExpected))) := by
  rcases argValue_cases arg s with ⟨v, hv⟩ | hv
  · rcases opush_cases v s with ⟨hf, hp⟩ | ⟨hf, hp⟩
    · exact .inl ⟨v, hv, hf, by rw [execPush, hv, orRaise_ok, hp]; rfl⟩
    · exact .inr (.inl ⟨v, hv, hf, by simp [execPush, hv, hp]⟩)
  · exact .inr (.inr ⟨hv, by simp [execPush, hv]⟩)

theorem execPop_cases (arg : Operand) (s : State) :
    (s.ostack = [] ∧ execPop arg s = .next (s.setReport (.errs .stackEmpty))) ∨
    (∃ v rest r, s.ostack = v :: rest ∧ arg = .register r
      ∧ execPop arg s = .next ((s.setReg r v).advanced rest)) ∨
    (∃ v rest, s.ostack = v :: rest ∧ arg.isRegister = false
      ∧ execPop arg s = .next (s.erred rest .registerExpected)) := by
  cases h : s.ostack with
  | nil => exact .inl ⟨rfl, by simp [execPop, opop_of_nil h]⟩
  | cons v rest =>
    rcases argRegister_cases arg with ⟨r, rfl, hr⟩ | ⟨ha, hr⟩
    · exact .inr (.inl ⟨v, rest, r, rfl, rfl, by rw [execPop, opop_of_cons h]; simp only [orRaise_ok, hr]; rfl⟩)
    · exact .inr (.inr ⟨v, rest, rfl, ha, by rw [execPop, opop_of_cons h]; simp only [orRaise_ok, hr]; rfl⟩)

/-- The instruction's name for an operation. -/
def ArithOp.instr (op : ArithOp) (arg : Operand) : Instr :=
  match op with
  | .add => .add arg
  | .sub => .subtract arg
  | .mul => .multiply arg
  | .div => .divide arg

theorem exec_arith (op : ArithOp) (arg : Operand) (s : State) : exec (op.instr arg) s = arithInstr op s := by
  cases op <;> rfl

theorem arithInstr_cases (op : ArithOp) (s : State) :
    (s.ostack.length < 2 ∧ arithInstr op s = .next (s.erred [] .stackEmpty)) ∨
    (∃ l r rest, s.ostack = r :: l :: rest
      ∧ ((∃ v, arith s.config.overflowPolicy op l r = .ok v
            ∧ stackFull s.config.ostackDepth rest.length = false
            ∧ arithInstr op s = .next (s.advanced (v :: rest))) ∨
         (∃ v, arith s.config.overflowPolicy op l r = .ok v
            ∧ stackFull s.config.ostackDepth rest.length = true
            ∧ arithInstr op s = .fault .stackOverflow) ∨
         (∃ f, arith s.config.overflowPolicy op l r = .error f ∧ arithInstr op s = .fault f))) := by
  rcases ostack_shape s.ostack with h | ⟨v, h⟩ | ⟨r, l, rest, h⟩
  · refine .inl ⟨by simp [h], ?_⟩
    rw [arithInstr, withTwo_of_nil h, State.erred, State.setOstack_of_eq h]
  · exact .inl ⟨by simp [h], by rw [arithInstr, withTwo_of_one h]⟩
  · refine .inr ⟨l, r, rest, h, ?_⟩
    have hx : arithInstr op s = orFatal (arith s.config.overflowPolicy op l r) fun v =>
        orFatal (opush v (s.setOstack rest)) advance := by rw [arithInstr, withTwo_of_two h]; rfl
    cases ha : arith s.config.overflowPolicy op l r with
    | error f => exact .inr (.inr ⟨f, rfl, by rw [hx, ha]; rfl⟩)
    | ok v =>
      rcases opush_cases v (s.setOstack rest) with ⟨hf, hp⟩ | ⟨hf, hp⟩
      · exact .inl ⟨v, rfl, hf, by rw [hx, ha, orFatal_ok, hp]; rfl⟩
      · exact .inr (.inl ⟨v, rfl, hf, by rw [hx, ha, orFatal_ok, hp]; rfl⟩)

/-- All that a conditional jump can do once its values are popped. -/
theorem jumpWhen_cases (taken : Bool) (arg : Operand) (s : State) :
    (taken = true ∧ ∃ t, arg = .instruction t
      ∧ jumpWhen taken arg s = .next ((s.setPc t).setReport .continues)) ∨
    (taken = true ∧ arg.isInstruction = false
      ∧ jumpWhen taken arg s = .next (s.setReport (.errs .instructionExpected))) ∨
    (taken = false ∧ jumpWhen taken arg s = .next ((s.setPc (s.pc + 1)).setReport .continues)) := by
  cases taken
  · exact .inr (.inr ⟨rfl, rfl⟩)
  · rcases argTarget_cases arg with ⟨t, rfl, ht⟩ | ⟨ha, ht⟩
    · exact .inl ⟨rfl, t, rfl, rfl⟩
    · exact .inr (.inl ⟨rfl, ha, by simp [jumpWhen, takeJump, ht]⟩)

theorem execJumpIfEqual_cases (arg : Operand) (s : State) :
    (s.ostack.length < 2 ∧ execJumpIfEqual arg s = .next (s.erred [] .stackEmpty)) ∨
    (∃ l r rest, s.ostack = r :: l :: rest
      ∧ ((condEqual l r = true ∧ ∃ t, arg = .instruction t
            ∧ execJumpIfEqual arg s = .next (((s.setOstack rest).setPc t).setReport .continues)) ∨
         (condEqual l r = true ∧ arg.isInstruction = false
            ∧ execJumpIfEqual arg s = .next (s.erred rest .instructionExpected)) ∨
         (condEqual l r = false ∧ execJumpIfEqual arg s = .next (s.advanced rest)))) := by
  rcases ostack_shape s.ostack with h | ⟨v, h⟩ | ⟨r, l, rest, h⟩
  · refine .inl ⟨by simp [h], ?_⟩
    rw [execJumpIfEqual, withTwo_of_nil h, State.erred, State.setOstack_of_eq h]
  · exact .inl ⟨by simp [h], by rw [execJumpIfEqual, withTwo_of_one h]⟩
  · refine .inr ⟨l, r, rest, h, ?_⟩
    rw [execJumpIfEqual, withTwo_of_two h]
    exact jumpWhen_cases (condEqual l r) arg (s.setOstack rest)

theorem execJumpIfZero_cases (arg : Operand) (s : State) :
    (s.ostack = [] ∧ execJumpIfZero arg s = .next (s.setReport (.errs .stackEmpty))) ∨
    (∃ v rest, s.ostack = v :: rest
      ∧ ((condZero v = true ∧ ∃ t, arg = .instruction t
            ∧ execJumpIfZero arg s = .next (((s.setOstack rest).setPc t).setReport .continues)) ∨
         (condZero v = true ∧ arg.isInstruction = false
            ∧ execJumpIfZero arg s = .next (s.erred rest .instructionExpected)) ∨
         (condZero v = false ∧ execJumpIfZero arg s = .next (s.advanced rest)))) := by
  cases h : s.ostack with
  | nil => exact .inl ⟨rfl, by simp [execJumpIfZero, opop_of_nil h]⟩
  | cons v rest =>
    refine .inr ⟨v, rest, rfl, ?_⟩
    rw [execJumpIfZero, opop_of_cons h]
    exact jumpWhen_cases (condZero v) arg (s.setOstack rest)

theorem execJump_cases (arg : Operand) (s : State) :
    (∃ t, arg = .instruction t ∧ execJump arg s = .next ((s.setPc t).setReport .continues)) ∨
    (arg.isInstruction = false
      ∧ execJump arg s = .next (s.setReport (.errs .instructionExpected))) := by
  rcases argTarget_cases arg with ⟨t, rfl, ht⟩ | ⟨ha, ht⟩
  · exact .inl ⟨t, rfl, rfl⟩
  · exact .inr ⟨ha, by simp [execJump, takeJump, ht]⟩

/-- The state after a `Call` has pushed its return address. -/
abbrev State.called (s : State) : State := s.setCstack (.returnAddress (s.pc + 1) :: s.cstack)

theorem execCall_cases (arg : Operand) (s : State) :
    (stackFull s.config.cstackDepth s.cstack.length = true ∧ execCall arg s = .fault .stackOverflow) ∨
    (stackFull s.config.cstackDepth s.cstack.length = false ∧ ∃ t, arg = .instruction t
      ∧ execCall arg s = .next ((s.called.setPc t).setReport .continues)) ∨
    (stackFull s.config.cstackDepth s.cstack.length = false ∧ arg.isInstruction = false
      ∧ execCall arg s = .next (s.called.setReport (.errs .instructionExpected))) := by
  rcases cpush_cases (.returnAddress (s.pc + 1)) s with ⟨hf, hp⟩ | ⟨hf, hp⟩
  · rcases argTarget_cases arg with ⟨t, rfl, ht⟩ | ⟨ha, ht⟩
    · exact .inr (.inl ⟨hf, t, rfl, by rw [execCall, hp]; rfl⟩)
    · exact .inr (.inr ⟨hf, ha, by rw [execCall, hp, orFatal_ok, takeJump, ht]; rfl⟩)
  · exact .inl ⟨hf, by rw [execCall, hp]; rfl⟩

theorem execReturn_cases (arg : Operand) (s : State) :
    (s.cstack = [] ∧ execReturn arg s = .next (s.setReport (.errs .callStackEmpty))) ∨
    (∃ a rest, s.cstack = .returnAddress a :: rest
      ∧ execReturn arg s = .next (((s.setCstack rest).setPc a).setReport .continues)) ∨
    (∃ v rest, s.cstack = v :: rest ∧ (∀ a, v ≠ .returnAddress a)
      ∧ execReturn arg s = .next ((s.setCstack rest).setReport (.errs .instructionExpected))) := by
  cases h : s.cstack with
  | nil => exact .inl ⟨rfl, by simp [execReturn, cpop_of_nil h]⟩
  | cons v rest =>
    cases v with
    | returnAddress a => exact .inr (.inl ⟨a, rest, rfl, by rw [execReturn, cpop_of_cons h]; rfl⟩)
    | _ => exact .inr (.inr ⟨_, rest, rfl, by simp, by rw [execReturn, cpop_of_cons h]; rfl⟩)

theorem execExit_eq (arg : Operand) (s : State) : execExit arg s = .next (s.setReport .breaks) := rfl

/-! ### The step -/

theorem step_of_fetch {s : State} {i : Instr} (h : fetch s = some i) : step s = exec i s := by
  simp [step, h]

theorem step_of_past_end {s : State} (h : fetch s = none) :
    step s = .next (s.setReport (.errs .instructionOverflow)) := by
  simp [step, h]

/-- A step either fetches nothing, or executes the instruction it fetched. -/
theorem step_cases (s : State) :
    (fetch s = none ∧ step s = .next (s.setReport (.errs .instructionOverflow))) ∨
    (∃ i, fetch s = some i ∧ step s = exec i s) := by
  cases h : fetch s with
  | none => exact .inl ⟨rfl, step_of_past_end h⟩
  | some i => exact .inr ⟨i, rfl, step_of_fetch h⟩

theorem fetch_eq_none_iff {s : State} : fetch s = none ↔ s.program.length ≤ s.pc.toNat := by
  simp [fetch]

/-! ### All the next states -/

/-- The states that a four-operation arithmetic instruction can leave. -/
def ArithNext (s t : State) : Prop :=
  (s.ostack.length < 2 ∧ t = s.erred [] .stackEmpty) ∨
  (∃ l r rest v, s.ostack = r :: l :: rest ∧ stackFull s.config.ostackDepth rest.length = false
    ∧ t = s.advanced (v :: rest))

/-- The states that a conditional jump can leave once `rest` is what its pops left of the operand stack. -/
def JumpNext (taken : Bool) (arg : Operand) (rest : List Value) (s t : State) : Prop :=
  (taken = true ∧ ∃ k, arg = .instruction k ∧ t = ((s.setOstack rest).setPc k).setReport .continues) ∨
  (taken = true ∧ arg.isInstruction = false ∧ t = s.erred rest .instructionExpected) ∨
  (taken = false ∧ t = s.advanced rest)

/-- The next states of each instruction, with the condition of each; faults left out. -/
def NextOf (i : Instr) (s t : State) : Prop :=
  match i with
  | .push arg =>
    (∃ v, argValue arg s = .ok v ∧ stackFull s.config.ostackDepth s.ostack.length = false
      ∧ t = s.advanced (v :: s.ostack)) ∨
    (argValue arg s = .error .valueExpected ∧ t = s.setReport (.errs .valueExpected))
  | .pop arg =>
    (s.ostack = [] ∧ t = s.setReport (.errs .stackEmpty)) ∨
    (∃ v rest r, s.ostack = v :: rest ∧ arg = .register r ∧ t = (s.setReg r v).advanced rest) ∨
    (∃ v rest, s.ostack = v :: rest ∧ arg.isRegister = false ∧ t = s.erred rest .registerExpected)
  | .add _ => ArithNext s t
  | .subtract _ => ArithNext s t
  | .multiply _ => ArithNext s t
  | .divide _ => ArithNext s t
  | .jumpIfEqual arg =>
    (s.ostack.length < 2 ∧ t = s.erred [] .stackEmpty) ∨
    (∃ l r rest, s.ostack = r :: l :: rest ∧ JumpNext (condEqual l r) arg rest s t)
  | .jumpIfZero arg =>
    (s.ostack = [] ∧ t = s.setReport (.errs .stackEmpty)) ∨
    (∃ v rest, s.ostack = v :: rest ∧ JumpNext (condZero v) arg rest s t)
  | .jump arg =>
    (∃ k, arg = .instruction k ∧ t = (s.setPc k).setReport .continues) ∨
    (arg.isInstruction = false ∧ t = s.setReport (.errs .instructionExpected))
  | .call arg =>
    stackFull s.config.cstackDepth s.cstack.length = false ∧
    ((∃ k, arg = .instruction k ∧ t = (s.called.setPc k).setReport .continues) ∨
     (arg.isInstruction = false ∧ t = s.called.setReport (.errs .instructionExpected)))
  | .ret _ =>
    (s.cstack = [] ∧ t = s.setReport (.errs .callStackEmpty)) ∨
    (∃ a rest, s.cstack = .returnAddress a :: rest ∧ t = ((s.setCstack rest).setPc a).setReport .continues) ∨
    (∃ v rest, s.cstack = v :: rest ∧ (∀ a, v ≠ .returnAddress a)
      ∧ t = (s.setCstack rest).setReport (.errs .instructionExpected))
  | .exit _ => t = s.setReport .breaks

theorem arithInstr_next {op : ArithOp} {s t : State} (h : arithInstr op s = .next t) : ArithNext s t := by
  rcases arithInstr_cases op s with ⟨h1, e⟩ | ⟨l, r, rest, h1, ⟨v, _, h2, e⟩ | ⟨v, _, _, e⟩ | ⟨f, _, e⟩⟩ <;>
    rw [e] at h <;> cases h
  · exact .inl ⟨h1, rfl⟩
  · exact .inr ⟨l, r, rest, v, h1, h2, rfl⟩

/-- Every next state of an instruction is one of those `NextOf` lists. -/
theorem exec_next {i : Instr} {s t : State} (h : exec i s = .next t) : NextOf i s t := by
  cases i with
  | push arg =>
    rcases execPush_cases arg s with ⟨v, h1, h2, e⟩ | ⟨v, _, _, e⟩ | ⟨h1, e⟩ <;> rw [exec, e] at h <;> cases h
    · exact .inl ⟨v, h1, h2, rfl⟩
    · exact .inr ⟨h1, rfl⟩
  | pop arg =>
    rcases execPop_cases arg s with ⟨h1, e⟩ | ⟨v, rest, r, h1, h2, e⟩ | ⟨v, rest, h1, h2, e⟩ <;>
      rw [exec, e] at h <;> cases h
    · exact .inl ⟨h1, rfl⟩
    · exact .inr (.inl ⟨v, rest, r, h1, h2, rfl⟩)
    · exact .inr (.inr ⟨v, rest, h1, h2, rfl⟩)
  | add arg => exact arithInstr_next (op := .add) h
  | subtract arg => exact arithInstr_next (op := .sub) h
  | multiply arg => exact arithInstr_next (op := .mul) h
  | divide arg => exact arithInstr_next (op := .div) h
  | jumpIfEqual arg =>
    rcases execJumpIfEqual_cases arg s with ⟨h0, e⟩ | ⟨l, r, rest, h0, ⟨h1, k, h2, e⟩ | ⟨h1, h2, e⟩ | ⟨h1, e⟩⟩ <;>
      rw [exec, e] at h <;> cases h
    · exact .inl ⟨h0, rfl⟩
    · exact .inr ⟨l, r, rest, h0, .inl ⟨h1, k, h2, rfl⟩⟩
    · exact .inr ⟨l, r, rest, h0, .inr (.inl ⟨h1, h2, rfl⟩)⟩
    · exact .inr ⟨l, r, rest, h0, .inr (.inr ⟨h1, rfl⟩)⟩
  | exit arg => cases h; rfl
  | jumpIfZero arg =>
    rcases execJumpIfZero_cases arg s with ⟨h0, e⟩ | ⟨v, rest, h0, ⟨h1, k, h2, e⟩ | ⟨h1, h2, e⟩ | ⟨h1, e⟩⟩ <;>
      rw [exec, e] at h <;> cases h
    · exact .inl ⟨h0, rfl⟩
    · exact .inr ⟨v, rest, h0, .inl ⟨h1, k, h2, rfl⟩⟩
    · exact .inr ⟨v, rest, h0, .inr (.inl ⟨h1, h2, rfl⟩)⟩
    · exact .inr ⟨v, rest, h0, .inr (.inr ⟨h1, rfl⟩)⟩
  | call arg =>
    rcases execCall_cases arg s with ⟨_, e⟩ | ⟨h0, k, h1, e⟩ | ⟨h0, h1, e⟩ <;> rw [exec, e] at h <;> cases h
    · exact ⟨h0, .inl ⟨k, h1, rfl⟩⟩
    · exact ⟨h0, .inr ⟨h1, rfl⟩⟩
  | ret arg =>
    rcases execReturn_cases arg s with ⟨h0, e⟩ | ⟨a, rest, h0, e⟩ | ⟨v, rest, h0, h1, e⟩ <;>
      rw [exec, e] at h <;> cases h
    · exact .inl ⟨h0, rfl⟩
    · exact .inr (.inl ⟨a, rest, h0, rfl⟩)
    · exact .inr (.inr ⟨v, rest, h0, h1, rfl⟩)
  | jump arg =>
    rcases execJump_cases arg s with ⟨k, h0, e⟩ | ⟨h0, e⟩ <;> rw [exec, e] at h <;> cases h
    · exact .inl ⟨k, h0, rfl⟩
    · exact .inr ⟨h0, rfl⟩

/-- Every next state of a step: the fetch failed, or the fetched instruction left it. -/
theorem step_next {s t : State} (h : step s = .next t) :
    (s.program[s.pc.toNat]? = none ∧ t = s.setReport (.errs .instructionOverflow)) ∨
    ∃ i, s.program[s.pc.toNat]? = some i ∧ NextOf i s t := by
  rcases step_cases s with ⟨h1, e⟩ | ⟨i, h1, e⟩ <;> rw [e] at h
  · cases h; exact .inl ⟨h1, rfl⟩
  · exact .inr ⟨i, h1, exec_next h⟩

end Sys2Proof.Machine
end

