-- ==== Sys2Proof/Laws/PerInstr.lean ====
section
/-! SUPPORT. The per-instruction law `OpcodeOperand`: an instruction is the pair of its opcode and its operand (spec
R42). -/

namespace Sys2Proof.Laws.OpcodeOperand

/-- The instruction is rebuilt from its two parts. -/
def Statement (i : Instr) : Prop := i.opcode.instr i.operand = i

theorem push (arg : Operand) : Statement (.push arg) := rfl
theorem pop (arg : Operand) : Statement (.pop arg) := rfl
theorem add (arg : Operand) : Statement (.add arg) := rfl
theorem subtract (arg : Operand) : Statement (.subtract arg) := rfl
theorem multiply (arg : Operand) : Statement (.multiply arg) := rfl
theorem divide (arg : Operand) : Statement (.divide arg) := rfl
theorem jumpIfEqual (arg : Operand) : Statement (.jumpIfEqual arg) := rfl
theorem exit (arg : Operand) : Statement (.exit arg) := rfl
theorem jumpIfZero (arg : Operand) : Statement (.jumpIfZero arg) := rfl
theorem call (arg : Operand) : Statement (.call arg) := rfl
theorem ret (arg : Operand) : Statement (.ret arg) := rfl
theorem jump (arg : Operand) : Statement (.jump arg) := rfl

end Sys2Proof.Laws.OpcodeOperand
end

