-- ==== Sys2Proof/Laws/Port.lean ====
section
/-! SUPPORT. The laws of the command port: the fields of a settled state, and all that each command and each step of a
run can do. -/

namespace Sys2Proof.Machine

@[simp] theorem State.settled_program (s : State) : s.settled.program = s.program := rfl
@[simp] theorem State.settled_config (s : State) : s.settled.config = s.config := rfl
@[simp] theorem State.settled_toBlock (s : State) : s.settled.toBlock = s.toBlock := rfl
@[simp] theorem State.settled_report (s : State) : s.settled.report = .notStepped := rfl

/-- All that the host's `push` can do. -/
theorem hostPush_cases (v : Value) (s : State) :
    (stackFull s.config.ostackDepth s.ostack.length = false
        ∧ hostPush v s = .next (s.setOstack (v :: s.ostack)).settled) ∨
    (stackFull s.config.ostackDepth s.ostack.length = true ∧ hostPush v s = .fault .stackOverflow) := by
  rcases opush_cases v s with ⟨h, e⟩ | ⟨h, e⟩
  · exact .inl ⟨h, by rw [hostPush, e]; rfl⟩
  · exact .inr ⟨h, by rw [hostPush, e]; rfl⟩

/-- All that the host's `pop` can do. -/
theorem hostPop_cases (s : State) :
    (s.ostack = [] ∧ hostPop s = .error .stackEmpty) ∨
    (∃ v rest, s.ostack = v :: rest ∧ hostPop s = .ok (v, (s.setOstack rest).settled)) := by
  cases h : s.ostack with
  | nil => exact .inl ⟨rfl, by rw [hostPop, opop_of_nil h]⟩
  | cons v rest => exact .inr ⟨v, rest, rfl, by rw [hostPop, opop_of_cons h]⟩

/-- All that the `step` command can do. -/
theorem performStep_cases (s : State) :
    (∃ t, step s = .next t ∧ performStep s = (.ready t.settled, some (.stepped t.report))) ∨
    (∃ kind, step s = .fault kind ∧ performStep s = (.dead kind, some (.fatal kind))) ∨
    (∃ reason, step s = .refused reason ∧ performStep s = (.unmodelled reason, none)) := by
  unfold performStep
  cases step s with
  | next t => exact .inl ⟨t, rfl, rfl⟩
  | fault kind => exact .inr (.inl ⟨kind, rfl, rfl⟩)
  | refused reason => exact .inr (.inr ⟨reason, rfl, rfl⟩)

/-- All that one step of a run in progress can do. -/
theorem runOnce_cases (s : State) :
    (∃ t, step s = .next t ∧ (t.report = .continues ∨ t.report = .notStepped)
      ∧ runOnce s = (.running t, none)) ∨
    (∃ t, step s = .next t ∧ t.report = .breaks ∧ runOnce s = (.ready t.settled, some .success)) ∨
    (∃ t kind, step s = .next t ∧ t.report = .errs kind
      ∧ runOnce s = (.ready t.settled, some (.error kind))) ∨
    (∃ kind, step s = .fault kind ∧ runOnce s = (.dead kind, some (.fatal kind))) ∨
    (∃ reason, step s = .refused reason ∧ runOnce s = (.unmodelled reason, none)) := by
  unfold runOnce
  cases step s with
  | fault kind => exact .inr (.inr (.inr (.inl ⟨kind, rfl, rfl⟩)))
  | refused reason => exact .inr (.inr (.inr (.inr ⟨reason, rfl, rfl⟩)))
  | next t =>
    cases h : t.report with
    | continues => exact .inl ⟨t, rfl, .inl h, by simp [h]⟩
    | notStepped => exact .inl ⟨t, rfl, .inr h, by simp [h]⟩
    | breaks => exact .inr (.inl ⟨t, rfl, h, by simp [h]⟩)
    | errs kind => exact .inr (.inr (.inl ⟨t, kind, rfl, h, by simp [h]⟩))

/-- The events that are accepted: a command on a ready port, a step of a run in progress. -/
theorem portStep_eq_some {e : PortEvent} {p : Port} {x : Port × Option Reply} :
    portStep e p = some x ↔
      (∃ c s, e = .issue c ∧ p = .ready s ∧ perform c s = x) ∨ (∃ s, e = .work ∧ p = .running s ∧ runOnce s = x) := by
  cases e <;> cases p <;> simp [portStep]

@[simp] theorem portRun_nil (p : Port) : portRun [] p = some p := rfl

theorem portRun_cons_of_some {e : PortEvent} {es : List PortEvent} {p q : Port} {a : Option Reply}
    (h : portStep e p = some (q, a)) : portRun (e :: es) p = portRun es q := by
  simp [portRun, h]

theorem portRun_cons_of_none {e : PortEvent} {es : List PortEvent} {p : Port} (h : portStep e p = none) :
    portRun (e :: es) p = none := by
  simp [portRun, h]

/-- A sequence of events that was accepted whole was accepted event by event. -/
theorem portRun_cons_eq_some {e : PortEvent} {es : List PortEvent} {p r : Port} :
    portRun (e :: es) p = some r ↔ ∃ q a, portStep e p = some (q, a) ∧ portRun es q = some r := by
  rw [portRun]
  cases portStep e p with
  | none => simp
  | some x =>
    obtain ⟨q, a⟩ := x
    exact ⟨fun h => ⟨q, a, rfl, h⟩, fun ⟨_, _, hq, h⟩ => by cases hq; exact h⟩

end Sys2Proof.Machine
end

