-- ==== Sys2Proof/Machine/Text.lean ====
section
/-! DEFINITION. The textual form of instructions and programs (spec R101): `Opcode(Operand)`, decimal numbers,
instructions separated by semicolons or line breaks; a printer and a reader. Nothing in the machine uses either. -/

namespace Sys2Proof.Machine

/-- The name of a register. -/
def regText : Reg → String
  | .register1 => "Register1"
  | .register2 => "Register2"
  | .register3 => "Register3"
  | .register4 => "Register4"
  | .register5 => "Register5"
  | .register6 => "Register6"
  | .register7 => "Register7"
  | .register8 => "Register8"
  | .register9 => "Register9"

/-- A variant's name with its number. -/
def numberedText (name number : String) : String := name ++ "(" ++ number ++ ")"

/-- The operand. -/
def operandText : Operand → String
  | .register r => regText r
  | .none => "None"
  | .uint8 n => numberedText "Uint8" (toString n.toNat)
  | .uint16 n => numberedText "Uint16" (toString n.toNat)
  | .uint32 n => numberedText "Uint32" (toString n.toNat)
  | .uint64 n => numberedText "Uint64" (toString n.toNat)
  | .int8 n => numberedText "Int8" (toString n.toInt)
  | .int16 n => numberedText "Int16" (toString n.toInt)
  | .int32 n => numberedText "Int32" (toString n.toInt)
  | .int64 n => numberedText "Int64" (toString n.toInt)
  | .instruction i => numberedText "Instruction" (toString i.toNat)

/-- The opcode. -/
def opcodeText : Opcode → String
  | .push => "Push"
  | .pop => "Pop"
  | .add => "Add"
  | .subtract => "Subtract"
  | .multiply => "Multiply"
  | .divide => "Divide"
  | .jumpIfEqual => "JumpIfEqual"
  | .exit => "Exit"
  | .jumpIfZero => "JumpIfZero"
  | .call => "Call"
  | .ret => "Return"
  | .jump => "Jump"

/-- The instruction; an operand `None` is left out with its parentheses. -/
def instrText (i : Instr) : String :=
  match i.operand with
  | .none => opcodeText i.opcode
  | arg => numberedText (opcodeText i.opcode) (operandText arg)

/-- The listing of a program on one line. -/
def programText (p : List Instr) : String := String.intercalate "; " (p.map instrText)

/-! ### Reading (spec R101) -/

/-- A blank: a space or a tab. DESIGN CHOICE (log entry 24): R101 names no blank character. Safe. -/
def isBlank (c : Char) : Bool := c == ' ' || c == '\t'

/-- The text without the blanks at its two ends. -/
def trimText (cs : List Char) : List Char := ((cs.dropWhile isBlank).reverse.dropWhile isBlank).reverse

/-- The pieces between semicolons and line breaks. DESIGN CHOICE (log entry 24): R101 says 'line breaks' and not which
characters they are; here a line break is the line feed alone, and a carriage return is neither a separator nor a
blank, so a listing with CR LF line ends is refused. Safe. -/
def textPieces : List Char → List (List Char)
  | [] => [[]]
  | c :: cs =>
    if c == ';' || c == '\n' then [] :: textPieces cs
    else
      match textPieces cs with
      | [] => [[c]]
      | piece :: rest => (c :: piece) :: rest

/-- The number with the given decimal digits after `acc`. -/
def readDigits : List Char → Nat → Option Nat
  | [], acc => some acc
  | c :: cs, acc =>
    if 48 ≤ c.toNat ∧ c.toNat ≤ 57 then readDigits cs (10 * acc + (c.toNat - 48)) else none

/-- A decimal number with an optional minus sign. DESIGN CHOICE (log entry 24): R101 says 'a decimal number in range'
and no more of its spelling; here leading zeros are allowed, a minus sign before zero is read as zero, for every
variant (`Uint8(-0)` and `Instruction(-0)` too), and a plus sign is refused. Safe. -/
def readNumber (cs : List Char) : Option Int :=
  match cs with
  | [] => none
  | ['-'] => none
  | '-' :: ds => (readDigits ds 0).map fun n => -(n : Int)
  | ds => (readDigits ds 0).map fun n => (n : Int)

/-- A decimal number within bounds. -/
def readWithin (lo hi : Int) (cs : List Char) : Option Int :=
  match readNumber cs with
  | some n => if lo ≤ n ∧ n ≤ hi then some n else none
  | none => none

/-- `name(inner)` as its two parts; a text without parentheses has no inner part. DESIGN CHOICE (log entry 24): blanks
next to the parentheses are not dropped, empty parentheses hold no operand, and names are read with the letters and
capitals of R82 and R83 alone. Safe. -/
def readCall (cs : List Char) : Option (List Char × Option (List Char)) :=
  match cs.span (fun c => c != '(') with
  | (name, []) => some (name, none)
  | (name, _ :: rest) =>
    match rest.reverse with
    | ')' :: inner => some (name, some inner.reverse)
    | _ => none

/-- Every register. -/
def allRegs : List Reg :=
  [.register1, .register2, .register3, .register4, .register5, .register6, .register7, .register8, .register9]

/-- Every opcode. -/
def allOpcodes : List Opcode :=
  [.push, .pop, .add, .subtract, .multiply, .divide, .jumpIfEqual, .exit, .jumpIfZero, .call, .ret, .jump]

/-- An operand with a number in the range of its variant. -/
def readNumberedOperand (name : String) (inner : List Char) : Option Operand :=
  if name = "Uint8" then (readWithin 0 (2 ^ 8 - 1) inner).map fun n => .uint8 (BitVec.ofInt 8 n)
  else if name = "Uint16" then (readWithin 0 (2 ^ 16 - 1) inner).map fun n => .uint16 (BitVec.ofInt 16 n)
  else if name = "Uint32" then (readWithin 0 (2 ^ 32 - 1) inner).map fun n => .uint32 (BitVec.ofInt 32 n)
  else if name = "Uint64" then (readWithin 0 (2 ^ 64 - 1) inner).map fun n => .uint64 (BitVec.ofInt 64 n)
  else if name = "Int8" then (readWithin (-(2 ^ 7)) (2 ^ 7 - 1) inner).map fun n => .int8 (BitVec.ofInt 8 n)
  else if name = "Int16" then (readWithin (-(2 ^ 15)) (2 ^ 15 - 1) inner).map fun n => .int16 (BitVec.ofInt 16 n)
  else if name = "Int32" then (readWithin (-(2 ^ 31)) (2 ^ 31 - 1) inner).map fun n => .int32 (BitVec.ofInt 32 n)
  else if name = "Int64" then (readWithin (-(2 ^ 63)) (2 ^ 63 - 1) inner).map fun n => .int64 (BitVec.ofInt 64 n)
  else if name = "Instruction" then
    (readWithin 0 (2 ^ 64 - 1) inner).map fun n => .instruction (BitVec.ofInt 64 n)
  else none

/-- An operand. -/
def readOperand (cs : List Char) : Option Operand :=
  match readCall cs with
  | none => none
  | some (name, some inner) => readNumberedOperand (String.ofList name) inner
  | some (name, none) =>
    if String.ofList name = "None" then some .none
    else (allRegs.find? fun r => regText r == String.ofList name).map .register

/-- An instruction; an opcode without parentheses has the operand `None`. -/
def readInstr (cs : List Char) : Option Instr :=
  match readCall cs with
  | none => none
  | some (name, inner) =>
    match allOpcodes.find? fun op => opcodeText op == String.ofList name with
    | none => none
    | some op =>
      match inner with
      | none => some (op.instr .none)
      | some arg => (readOperand arg).map op.instr

/-- The instructions of the pieces, in order. A blank piece is no instruction (log entry 24). -/
def readPieces : List (List Char) → Option (List Instr)
  | [] => some []
  | piece :: rest =>
    match trimText piece with
    | [] => readPieces rest
    | cs =>
      match readInstr cs, readPieces rest with
      | some i, some p => some (i :: p)
      | _, _ => none

/-- The program that a listing stands for, or nothing when some piece of it is no instruction. -/
def readProgram (text : String) : Option (List Instr) := readPieces (textPieces text.toList)

end Sys2Proof.Machine
end

