-- ==== Sys2Proof/Tests/Slice0.lean ====
section
/-! SUPPORT. Tests. Expected results are taken from the spec's vectors and worked examples (95_test_vectors.md, and the
examples in the rules named). Then one witness for every obligation that has hypotheses: concrete states and operands
that meet them together. Stacks are lists with the top first. -/

namespace Sys2Proof.Tests

open Sys2Proof Sys2Proof.Machine

/-- The reset state over a program, with an operand stack. -/
def stateOn (p : List Instr) (st : List Value) : State := { State.construct Config.chosen p with ostack := st }

/-- The parameters at their other values, both stacks one deep. -/
def strict : Config :=
  { overflowPolicy := .fatal, ostackDepth := some 1, cstackDepth := some 1, pushNone := .valueExpected,
    jumpTagDecodes := false }

/-- The reset state over a program under `strict`, with an operand stack. -/
def strictOn (p : List Instr) (st : List Value) : State := { State.construct strict p with ostack := st }

/-- Program P1 of 95_test_vectors.md (source example S2). -/
def p1 : List Instr := [.push (.uint64 0), .pop (.register .register1), .push (.register .register1), .exit .none]

/-- A program that calls index 2 and returns. -/
def callReturn : List Instr := [.call (.instruction 2), .exit .none, .ret .none]

/-! ### WellFormed: an ill-formed term for each check -/

theorem test_record_of_nine_bytes_is_ill_formed :
    recordWellFormed [0x00, 0x0D, 0, 0, 0, 0, 0, 0, 0] = false := by decide
theorem test_record_of_eleven_bytes_is_ill_formed :
    recordWellFormed [0x00, 0x0D, 0, 0, 0, 0, 0, 0, 0, 0, 0] = false := by decide
theorem test_opcode_tag_12_is_ill_formed :
    recordWellFormed [0x0C, 0x09, 0, 0, 0, 0, 0, 0, 0, 0] = false := by decide
theorem test_operand_tag_19_is_ill_formed :
    recordWellFormed [0x00, 0x13, 0, 0, 0, 0, 0, 0, 0, 0] = false := by decide
theorem test_legal_record_is_well_formed :
    recordWellFormed [0x0B, 0x12, 0xFF, 0, 0, 0, 0, 0, 0, 0xFF] = true := by decide
theorem test_nonzero_padding_is_found :
    recordPaddingZero [0x00, 0x0A, 0x03, 0xFF, 0, 0, 0, 0, 0, 0] = false
      ∧ recordPaddingZero [0x00, 0x0A, 0x03, 0, 0, 0, 0, 0, 0, 0] = true := by decide
theorem test_program_of_two_to_the_64_is_ill_formed (i : Instr) :
    programWellFormed (List.replicate (2 ^ 64) i) = false := by
  simp only [programWellFormed, List.length_replicate, lt_self_iff_false, decide_false]
theorem test_unsuited_operands_are_found :
    (Instr.push (.instruction 3)).operandSuits = false ∧ (Instr.pop (.uint8 0)).operandSuits = false
      ∧ (Instr.jump (.register .register1)).operandSuits = false ∧ (Instr.jumpIfZero .none).operandSuits = false
      ∧ (Instr.jumpIfEqual .none).operandSuits = false ∧ (Instr.call .none).operandSuits = false
      ∧ (Instr.add (.uint8 7)).operandSuits = true := by decide

/-! ### Decode: words written out from the encoding tables (spec R80 to R84), one per opcode and per operand -/

theorem test_decode_push : decodeRecord [0x00, 0x0B, 0x34, 0x12, 0, 0, 0, 0, 0, 0] = .ok (.push (.uint16 4660)) := rfl
theorem test_decode_pop :
    decodeRecord [0x01, 0x08, 0, 0, 0, 0, 0, 0, 0, 0] = .ok (.pop (.register .register9)) := rfl
theorem test_decode_add : decodeRecord [0x02, 0x0A, 0x07, 0, 0, 0, 0, 0, 0, 0] = .ok (.add (.uint8 7)) := rfl
theorem test_decode_subtract : decodeRecord [0x03, 0x09, 0, 0, 0, 0, 0, 0, 0, 0] = .ok (.subtract .none) := rfl
theorem test_decode_multiply : decodeRecord [0x04, 0x09, 0, 0, 0, 0, 0, 0, 0, 0] = .ok (.multiply .none) := rfl
theorem test_decode_divide : decodeRecord [0x05, 0x09, 0, 0, 0, 0, 0, 0, 0, 0] = .ok (.divide .none) := rfl
theorem test_decode_jumpIfEqual :
    decodeRecord [0x06, 0x12, 0x0A, 0, 0, 0, 0, 0, 0, 0] = .ok (.jumpIfEqual (.instruction 10)) := rfl
theorem test_decode_exit : decodeRecord [0x07, 0x09, 1, 2, 3, 4, 5, 6, 7, 8] = .ok (.exit .none) := rfl
theorem test_decode_jumpIfZero :
    decodeRecord [0x08, 0x12, 0x12, 0, 0, 0, 0, 0, 0, 0] = .ok (.jumpIfZero (.instruction 18)) := rfl
theorem test_decode_call :
    decodeRecord [0x09, 0x12, 0x04, 0, 0, 0, 0, 0, 0, 0] = .ok (.call (.instruction 4)) := rfl
theorem test_decode_ret : decodeRecord [0x0A, 0x09, 0, 0, 0, 0, 0, 0, 0, 0] = .ok (.ret .none) := rfl
theorem test_decode_jump :
    decodeRecord [0x0B, 0x12, 0x00, 0x01, 0, 0, 0, 0, 0, 0] = .ok (.jump (.instruction 256)) := rfl
theorem test_decode_registers :
    decodeRecord [0x00, 0x00, 0, 0, 0, 0, 0, 0, 0, 0] = .ok (.push (.register .register1))
      ∧ decodeRecord [0x00, 0x01, 0, 0, 0, 0, 0, 0, 0, 0] = .ok (.push (.register .register2))
      ∧ decodeRecord [0x00, 0x02, 0, 0, 0, 0, 0, 0, 0, 0] = .ok (.push (.register .register3))
      ∧ decodeRecord [0x00, 0x03, 0, 0, 0, 0, 0, 0, 0, 0] = .ok (.push (.register .register4))
      ∧ decodeRecord [0x00, 0x04, 0, 0, 0, 0, 0, 0, 0, 0] = .ok (.push (.register .register5))
      ∧ decodeRecord [0x00, 0x05, 0, 0, 0, 0, 0, 0, 0, 0] = .ok (.push (.register .register6))
      ∧ decodeRecord [0x00, 0x06, 0, 0, 0, 0, 0, 0, 0, 0] = .ok (.push (.register .register7))
      ∧ decodeRecord [0x00, 0x07, 0, 0, 0, 0, 0, 0, 0, 0] = .ok (.push (.register .register8))
      ∧ decodeRecord [0x00, 0x08, 0, 0, 0, 0, 0, 0, 0, 0] = .ok (.push (.register .register9)) :=
  ⟨rfl, rfl, rfl, rfl, rfl, rfl, rfl, rfl, rfl⟩
theorem test_decode_immediates :
    decodeRecord [0x00, 0x0A, 0xFF, 0, 0, 0, 0, 0, 0, 0] = .ok (.push (.uint8 255))
      ∧ decodeRecord [0x00, 0x0C, 0xEF, 0xBE, 0xAD, 0xDE, 0, 0, 0, 0] = .ok (.push (.uint32 3735928559))
      ∧ decodeRecord [0x00, 0x0D, 0x08, 0x07, 0x06, 0x05, 0x04, 0x03, 0x02, 0x01]
          = .ok (.push (.uint64 72623859790382856))
      ∧ decodeRecord [0x00, 0x0E, 0x80, 0, 0, 0, 0, 0, 0, 0] = .ok (.push (.int8 (-128)))
      ∧ decodeRecord [0x00, 0x0F, 0xFE, 0xFF, 0, 0, 0, 0, 0, 0] = .ok (.push (.int16 (-2)))
      ∧ decodeRecord [0x00, 0x10, 0x00, 0x00, 0x00, 0x80, 0, 0, 0, 0] = .ok (.push (.int32 (-2147483648)))
      ∧ decodeRecord [0x00, 0x11, 0xFF, 0xFF, 0xFF, 0xFF, 0xFF, 0xFF, 0xFF, 0xFF] = .ok (.push (.int64 (-1)))
      ∧ decodeRecord [0x00, 0x12, 0x03, 0, 0, 0, 0, 0, 0, 0] = .ok (.push (.instruction 3)) :=
  ⟨rfl, rfl, rfl, rfl, rfl, rfl, rfl, rfl⟩
theorem test_decode_rejects_by_name :
    decodeRecord [0xFF, 0x09, 0, 0, 0, 0, 0, 0, 0, 0] = .error (.badOpcode 0xFF)
      ∧ decodeRecord [0x00, 0x13, 0, 0, 0, 0, 0, 0, 0, 0] = .error (.badOperandTag 0x13)
      ∧ decodeRecord [0x00, 0x0D, 0, 0, 0, 0, 0, 0, 0] = .error (.badLength 9) := ⟨rfl, rfl, rfl⟩

/-- The 80-bit word of the vector table, and the same row given by its eight fixed bits alone. -/
theorem test_decode_table_words :
    decodeTableWord 80 0xffffffffffffffff120b = some (.jump (.instruction 18446744073709551615))
      ∧ decodeTableWord 80 0x00000000000000ff0e00 = some (.push (.int8 (-1)))
      ∧ decodeTableWord 8 0x0a = some (.ret (.register .register1))
      ∧ decodeTableWord 8 0x0c = none := ⟨rfl, rfl, rfl, rfl⟩

theorem test_image_decode :
    decodeImage Config.chosen [0, 0x0A, 1, 0, 0, 0, 0, 0, 0, 0, 7, 9, 0, 0, 0, 0, 0, 0, 0, 0, 0xFF, 0xFF, 0xFF, 0xFF, 0xFF]
      = .ok [.push (.uint8 1), .exit .none] := rfl
theorem test_image_refused :
    constructImage Config.chosen [0, 0x0A, 1, 0, 0, 0, 0, 0, 0, 0, 0x0C, 9, 0, 0, 0, 0, 0, 0, 0, 0]
      = .refused (.decodeRefused 1) := rfl

/-- The word placed in the reset state is what the next step runs. -/
theorem test_placed_word_runs_after_reset :
    step (State.reset.withFetchWord 80 0x00000000000000030a00)
      = .next { stateOn [.push (.uint8 3)] [.uint8 3] with pc := 1, report := .continues } := rfl

theorem test_step_from_reset_has_no_program :
    step State.reset = .next { State.reset with report := .errs .instructionOverflow } := rfl

/-! ### One step per instruction (vectors of 95_test_vectors.md sections 2.3 to 2.6) -/

theorem test_push_register :
    step { stateOn [.push (.register .register4)] [] with regs := { RegBank.cleared with register4 := .int32 9 } }
      = .next { stateOn [.push (.register .register4)] [.int32 9] with
          regs := { RegBank.cleared with register4 := .int32 9 }, pc := 1, report := .continues } := rfl
theorem test_push_instruction_is_value_expected :
    step (stateOn [.push (.instruction 3)] [.uint8 1])
      = .next { stateOn [.push (.instruction 3)] [.uint8 1] with report := .errs .valueExpected } := rfl
theorem test_pop_overwrites :
    step { stateOn [.pop (.register .register9)] [.none] with regs := { RegBank.cleared with register9 := .uint8 7 } }
      = .next { stateOn [.pop (.register .register9)] [] with pc := 1, report := .continues } := rfl
theorem test_pop_loses_the_value_on_a_bad_operand :
    step (stateOn [.pop (.uint8 0)] [.uint8 1])
      = .next { stateOn [.pop (.uint8 0)] [] with report := .errs .registerExpected } := rfl
theorem test_add_wraps :
    step (stateOn [.add .none] [.uint8 100, .uint8 200])
      = .next { stateOn [.add .none] [.uint8 44] with pc := 1, report := .continues } := rfl
theorem test_add_coerces_the_right :
    step (stateOn [.add .none] [.int8 (-1), .uint16 1])
      = .next { stateOn [.add .none] [.uint16 0] with pc := 1, report := .continues } := rfl
theorem test_subtract_is_left_minus_right :
    step (stateOn [.subtract .none] [.uint8 4, .uint8 9])
      = .next { stateOn [.subtract .none] [.uint8 5] with pc := 1, report := .continues } := rfl
theorem test_subtract_sign_extends_the_right :
    step (stateOn [.subtract .none] [.int8 (-1), .uint64 0])
      = .next { stateOn [.subtract .none] [.uint64 1] with pc := 1, report := .continues } := rfl
theorem test_multiply_signed :
    step (stateOn [.multiply .none] [.uint8 7, .int16 (-3)])
      = .next { stateOn [.multiply .none] [.int16 (-21)] with pc := 1, report := .continues } := rfl
theorem test_multiply_truncates_the_right :
    step (stateOn [.multiply .none] [.int16 (-3), .uint8 7])
      = .next { stateOn [.multiply .none] [.uint8 235] with pc := 1, report := .continues } := rfl
theorem test_divide_truncates_toward_zero :
    step (stateOn [.divide .none] [.int8 2, .int8 (-7)])
      = .next { stateOn [.divide .none] [.int8 (-3)] with pc := 1, report := .continues } := rfl
theorem test_divide_by_coerced_zero :
    step (stateOn [.divide .none] [.uint16 256, .uint8 5]) = .fault .divideByZero := rfl
theorem test_jumpIfEqual_coerces_the_right :
    step (stateOn [.jumpIfEqual (.instruction 10)] [.int16 (-1), .uint8 255])
      = .next { stateOn [.jumpIfEqual (.instruction 10)] [] with pc := 10, report := .continues } := rfl
theorem test_jumpIfEqual_is_not_symmetric :
    step (stateOn [.jumpIfEqual .none] [.uint8 255, .int16 (-1)])
      = .next { stateOn [.jumpIfEqual .none] [] with pc := 1, report := .continues } := rfl
theorem test_jumpIfZero_none_counts_as_zero :
    step (stateOn [.jumpIfZero (.instruction 18)] [.none])
      = .next { stateOn [.jumpIfZero (.instruction 18)] [] with pc := 18, report := .continues } := rfl
theorem test_jumpIfZero_minus_one :
    step (stateOn [.jumpIfZero (.instruction 18)] [.int8 (-1)])
      = .next { stateOn [.jumpIfZero (.instruction 18)] [] with pc := 1, report := .continues } := rfl
theorem test_jump_past_the_end :
    step (stateOn [.jump (.instruction 1000000)] [])
      = .next { stateOn [.jump (.instruction 1000000)] [] with pc := 1000000, report := .continues } := rfl
theorem test_jump_is_not_indirect :
    step (stateOn [.jump (.register .register1)] [])
      = .next { stateOn [.jump (.register .register1)] [] with report := .errs .instructionExpected } := rfl
theorem test_call_nested :
    step { stateOn [.call (.instruction 4)] [] with cstack := [.returnAddress 9] }
      = .next { stateOn [.call (.instruction 4)] [] with
          cstack := [.returnAddress 1, .returnAddress 9], pc := 4, report := .continues } := rfl
theorem test_call_bad_operand_leaves_the_return_address :
    step (stateOn [.call (.register .register1)] [])
      = .next { stateOn [.call (.register .register1)] [] with
          cstack := [.returnAddress 1], report := .errs .instructionExpected } := rfl
theorem test_return_innermost_first :
    step { stateOn [.ret (.uint8 3)] [] with cstack := [.returnAddress 3, .returnAddress 9] }
      = .next { stateOn [.ret (.uint8 3)] [] with
          cstack := [.returnAddress 9], pc := 3, report := .continues } := rfl
theorem test_return_without_a_call :
    step (stateOn [.ret .none] [.uint8 1])
      = .next { stateOn [.ret .none] [.uint8 1] with report := .errs .callStackEmpty } := rfl
theorem test_exit_keeps_pending_frames :
    step { stateOn [.exit .none] [.uint64 0] with cstack := [.returnAddress 2] }
      = .next { stateOn [.exit .none] [.uint64 0] with
          cstack := [.returnAddress 2], report := .breaks } := rfl

theorem test_overflow_policy_fatal :
    step (strictOn [.add .none] [.int8 1, .int8 127]) = .fault .arithmeticOverflow := rfl
theorem test_push_on_a_full_stack :
    step (strictOn [.push (.uint8 3)] [.uint8 1]) = .fault .stackOverflow := rfl

/-- Source example S2: P1 leaves one `Uint64(0)` and `run` succeeds. -/
theorem test_run_of_p1 :
    run 4 (stateOn p1 []) = .success { stateOn p1 [.uint64 0] with
      regs := { RegBank.cleared with register1 := .uint64 0 }, pc := 3, report := .breaks } := rfl

/-- A run in progress and a dead block accept no command (spec R186); a new `construct` is always there (R257). -/
theorem test_port_refuses_commands :
    portStep (.issue .reset) (.running (stateOn p1 [])) = none
      ∧ portStep (.issue .reset) (.dead .divideByZero) = none
      ∧ portStep (.issue .step) (Port.constructImage Config.chosen [0x0C, 9, 0, 0, 0, 0, 0, 0, 0, 0]).1 = none
      ∧ (Port.construct Config.chosen p1).1 = .ready (stateOn p1 []) := ⟨rfl, rfl, rfl, rfl⟩

theorem test_text : programText [.push (.int8 (-1)), .add .none, .jump (.instruction 5)]
    = "Push(Int8(-1)); Add; Jump(Instruction(5))" := by decide

/-- The listing of source example S2, and numbers at and past the end of a range. -/
theorem test_read_text :
    readProgram "Push(Uint64(0)); Pop(Register1); Push(Register1); Exit" = some p1
      ∧ readProgram "Push(Int8(-128))" = some [.push (.int8 (-128))] ∧ readProgram "Push(Int8(128))" = none := by
  decide

/-! ### Witnesses: for every obligation with hypotheses, data that meets them -/

/-- A session with a completed run of three more steps; and one left in the middle of a run. -/
theorem witness_ResetRestoresConstructedBlock :
    portRun [.issue (.push (.uint8 1)), .issue .step, .issue .run, .work, .work, .work, .issue .pop]
        (.ready (State.construct Config.chosen p1))
      = some (.ready { stateOn p1 [.uint8 1] with regs := { RegBank.cleared with register1 := .uint64 0 }, pc := 3 })
      ∧ portRun [.issue .run, .work] (.ready (State.construct Config.chosen p1))
      = some (.running { stateOn p1 [.uint64 0] with pc := 1, report := .continues }) := ⟨rfl, rfl⟩

theorem witness_NothingWritesTheProgram :
    exec (.exit .none) (stateOn p1 []) = .next { stateOn p1 [] with report := .breaks }
      ∧ step (stateOn p1 []) = .next { stateOn p1 [.uint64 0] with pc := 1, report := .continues }
      ∧ (perform .reset (stateOn p1 [.uint8 1])).1.held = some (stateOn p1 [])
      ∧ portRun [.issue .reset] (.ready (stateOn p1 [.uint8 1])) = some (.ready (stateOn p1 [])) := ⟨rfl, rfl, rfl, rfl⟩

/-- The first index past the end, with its step; and the last index of the program. -/
theorem witness_FetchIsCheckedAgainstProgramLength :
    ({ stateOn p1 [] with pc := 4 }).program.length ≤ ({ stateOn p1 [] with pc := 4 }).pc.toNat
      ∧ step { stateOn p1 [] with pc := 4 }
          = .next { stateOn p1 [] with pc := 4, report := .errs .instructionOverflow }
      ∧ ({ stateOn p1 [] with pc := 3 }).pc.toNat < ({ stateOn p1 [] with pc := 3 }).program.length :=
  ⟨by decide, rfl, by decide⟩

theorem witness_StepRunsTheDecodedRecord :
    constructImage Config.chosen (encodeImage callReturn) = .next (stateOn callReturn [])
      ∧ ({ stateOn callReturn [.none] with pc := 2 }).program = (stateOn callReturn []).program
      ∧ decodeRecord (((encodeImage callReturn).drop (10 * ({ stateOn callReturn [.none] with pc := 2 }).pc.toNat)).take 10)
          = .ok (.ret .none) := ⟨rfl, rfl, rfl⟩

/-- Inside the program, and two indices past its end. -/
theorem witness_PlacedWordIsExecutedNext :
    decodeTableWord 80 0x00000000000000000905 = some (.divide .none)
      ∧ (({ stateOn [.ret .none] [] with pc := 0 }).withFetchWord 80 0x905).program = [.divide .none]
      ∧ (({ stateOn [.ret .none] [] with pc := 3 }).withFetchWord 80 0x905).program
          = [.ret .none, .exit .none, .exit .none, .divide .none] := ⟨rfl, rfl, rfl⟩

theorem witness_ChosenParametersStopOnlyOnDivideByZero :
    (stateOn p1 []).config = Config.chosen ∧ (Instr.exit .none).opcode ≠ .divide := by decide

/-- A record with zero padding and one without. -/
theorem witness_EncodeUndoesDecodeOnZeroPadding :
    decodeRecord [0x00, 0x0A, 0x03, 0, 0, 0, 0, 0, 0, 0] = .ok (.push (.uint8 3))
      ∧ decodeRecord [0x00, 0x0A, 0x03, 0, 0, 0, 0, 0, 0, 1] = .ok (.push (.uint8 3)) := ⟨rfl, rfl⟩

theorem witness_PaddingIsNotExamined :
    decodeRecord [0x00, 0x0A, 0x03, 0, 0, 0, 0, 0, 0, 0] = .ok (.push (.uint8 3))
      ∧ ([0x00, 0x0A, 0x03, 0xFF, 0, 0, 0, 0, 0, 1] : List Byte).length = 10
      ∧ ([0x00, 0x0A, 0x03, 0xFF, 0, 0, 0, 0, 0, 1] : List Byte).take
            (2 + naturalWidth (Instr.push (.uint8 3)).operand.tag.toNat)
          = ([0x00, 0x0A, 0x03, 0, 0, 0, 0, 0, 0, 0] : List Byte).take
            (2 + naturalWidth (Instr.push (.uint8 3)).operand.tag.toNat) := ⟨rfl, rfl, rfl⟩

/-- Lengths 9 and 11, the first opcode tag and the first operand tag out of range. -/
theorem witness_RecordDecodesExactlyWhenLegal :
    ([0x00, 0x0D, 0, 0, 0, 0, 0, 0, 0] : List Byte).length ≠ 10
      ∧ ([0x00, 0x0D, 0, 0, 0, 0, 0, 0, 0, 0, 0] : List Byte).length ≠ 10
      ∧ 11 < (([0x0C, 0x09, 0, 0, 0, 0, 0, 0, 0, 0] : List Byte).getD 0 0).toNat
      ∧ (([0x0B, 0x13, 0, 0, 0, 0, 0, 0, 0, 0] : List Byte).getD 0 0).toNat ≤ 11
      ∧ 18 < (([0x0B, 0x13, 0, 0, 0, 0, 0, 0, 0, 0] : List Byte).getD 1 0).toNat := by decide

/-- Two records; a tail of nine bytes; a buffer of nine bytes. -/
theorem witness_ImageDecodeCutsRecordsAndDropsTail :
    decodeImage Config.chosen (encodeImage callReturn) = .ok callReturn
      ∧ callReturn[2]? = some (.ret .none) ∧ (encodeImage callReturn).length % 10 = 0
      ∧ (List.replicate 9 (0xFF : Byte)).length < 10 := ⟨rfl, rfl, rfl, by decide⟩

/-- An image whose second record is the first bad one; an image without a bad record; with `Jump` refused, an image with
a `Jump`. -/
theorem witness_ImageRefusedAtItsFirstBadRecord :
    constructImage Config.chosen [7, 9, 0, 0, 0, 0, 0, 0, 0, 0, 7, 0x13, 0, 0, 0, 0, 0, 0, 0, 0]
        = .refused (.decodeRefused 1)
      ∧ constructImage strict (encodeImage [.exit .none, .jump (.instruction 0)]) = .refused (.decodeRefused 1)
      ∧ (∀ m, m < (encodeImage callReturn).length / 10 →
          ∃ i, decodeRecord (((encodeImage callReturn).drop (10 * m)).take 10) = .ok i
            ∧ (i.opcode = .jump → Config.chosen.jumpTagDecodes = true)) := by
  refine ⟨rfl, rfl, fun m hm => ?_⟩
  have h : m < 3 := hm
  interval_cases m
  · exact ⟨_, rfl, fun _ => rfl⟩
  · exact ⟨_, rfl, fun _ => rfl⟩
  · exact ⟨_, rfl, fun _ => rfl⟩

theorem witness_ImageOfProgramLoadsTheProgram : Config.chosen.jumpTagDecodes = true := rfl

/-- The last free place of a stack of depth one, and the parameter of the operand `None`. -/
theorem witness_PushPutsTheOperandsValueOnTop :
    (∀ d, (strictOn p1 []).config.ostackDepth = some d → (strictOn p1 []).ostack.length < d)
      ∧ (∀ d, (stateOn p1 [.none]).config.ostackDepth = some d → (stateOn p1 [.none]).ostack.length < d)
      ∧ (stateOn p1 [.none]).config.pushNone = .pushes := by
  refine ⟨fun d h => ?_, fun d h => ?_, rfl⟩
  · cases h; decide
  · cases h

theorem witness_PopStoresTheTopInTheRegister :
    (stateOn p1 [.returnAddress 4]).ostack = .returnAddress 4 :: [] ∧ Reg.register2 ≠ Reg.register9 := by decide

theorem witness_PushThenPopMovesARegister :
    let s := strictOn [.push (.register .register2), .pop (.register .register2)] []
    programWellFormed s.program = true
      ∧ s.program[s.pc.toNat]? = some (.push (.register .register2))
      ∧ s.program[s.pc.toNat + 1]? = some (.pop (.register .register2))
      ∧ ∀ d, s.config.ostackDepth = some d → s.ostack.length < d := by
  refine ⟨by decide, rfl, rfl, fun d h => ?_⟩
  cases h; decide

theorem witness_ConversionExtendsThenTruncates : Variant.returnAddress ≠ .none := by decide

/-- Under `wrap` with a result out of range; and under `fatal` at the greatest `Int8`, with the last free place of the
stack. -/
theorem witness_AddSubtractMultiplyComplete :
    (let s := stateOn p1 [.int8 (-1), .uint8 255]
     s.ostack = .int8 (-1) :: .uint8 255 :: [] ∧ Value.uint8 255 ≠ .none
       ∧ (∀ d, s.config.ostackDepth = some d → ([] : List Value).length < d) ∧ s.config.overflowPolicy = .wrap) ∧
    (let s := strictOn p1 [.int8 0, .int8 127]
     s.ostack = .int8 0 :: .int8 127 :: [] ∧ Value.int8 127 ≠ .none
       ∧ (∀ d, s.config.ostackDepth = some d → ([] : List Value).length < d)
       ∧ minOf (variantOf (.int8 127)) ≤ num (.int8 127) + conv (variantOf (.int8 127)) (.int8 0)
       ∧ num (.int8 127) + conv (variantOf (.int8 127)) (.int8 0) ≤ maxOf (variantOf (.int8 127))) := by
  refine ⟨⟨rfl, by decide, fun _ h => (by cases h), rfl⟩, ⟨rfl, by decide, fun d h => ?_, by decide, by decide⟩⟩
  cases h; decide

/-- The overflowing division under `wrap`, with a product that is not negative; a division in range under `fatal`, with
one that is not positive. -/
theorem witness_DivideCompletesTruncating :
    (let s := stateOn p1 [.int8 (-1), .int8 (-128)]
     s.ostack = .int8 (-1) :: .int8 (-128) :: [] ∧ Value.int8 (-128) ≠ .none
       ∧ conv (variantOf (.int8 (-128))) (.int8 (-1)) ≠ 0
       ∧ (∀ d, s.config.ostackDepth = some d → ([] : List Value).length < d)
       ∧ 0 ≤ num (.int8 (-128)) * conv (variantOf (.int8 (-128))) (.int8 (-1))
       ∧ s.config.overflowPolicy = .wrap) ∧
    (let s := strictOn p1 [.int8 2, .int8 (-7)]
     s.ostack = .int8 2 :: .int8 (-7) :: [] ∧ Value.int8 (-7) ≠ .none
       ∧ conv (variantOf (.int8 (-7))) (.int8 2) ≠ 0
       ∧ (∀ d, s.config.ostackDepth = some d → ([] : List Value).length < d)
       ∧ num (.int8 (-7)) * conv (variantOf (.int8 (-7))) (.int8 2) ≤ 0
       ∧ minOf (variantOf (.int8 (-7))) ≤ (-3 : Int) ∧ (-3 : Int) ≤ maxOf (variantOf (.int8 (-7)))) := by
  refine ⟨⟨rfl, by decide, by decide, fun _ h => (by cases h), by decide, rfl⟩,
    ⟨rfl, by decide, by decide, fun d h => ?_, by decide, by decide, by decide⟩⟩
  cases h; decide

theorem witness_NoneOnTheLeftAbsorbs :
    (strictOn p1 [.uint8 0, .none]).ostack = .uint8 0 :: .none :: []
      ∧ ∀ d, (strictOn p1 [.uint8 0, .none]).config.ostackDepth = some d → ([] : List Value).length < d := by
  refine ⟨rfl, fun d h => ?_⟩
  cases h; decide

theorem witness_DivideByZeroExactlyOnCoercedZero :
    exec (.divide .none) (stateOn p1 [.uint16 256, .uint8 5]) = .fault .divideByZero
      ∧ conv (variantOf (.uint8 5)) (.uint16 256) = 0 := ⟨rfl, by decide⟩

theorem witness_ArithmeticOverflowExactlyUnderFatalPolicy :
    exec (.divide .none) (strictOn p1 [.int8 (-1), .int8 (-128)]) = .fault .arithmeticOverflow
      ∧ exec (.subtract .none) (strictOn p1 [.uint8 1, .uint8 0]) = .fault .arithmeticOverflow := ⟨rfl, rfl⟩

/-- Stacks at their depth: `Push` and `Call` overflow. -/
theorem witness_StackOverflowExactlyOnFullStack :
    WithinDepth (strictOn p1 [.uint8 1]).config.ostackDepth (strictOn p1 [.uint8 1]).ostack
      ∧ WithinDepth (some 1) [.returnAddress 1]
      ∧ exec (.push (.uint8 2)) (strictOn p1 [.uint8 1]) = .fault .stackOverflow
      ∧ exec (.call .none) { strictOn p1 [] with cstack := [.returnAddress 1] } = .fault .stackOverflow := by
  refine ⟨fun d h => ?_, fun d h => ?_, rfl, rfl⟩
  · cases h; decide
  · cases h; decide

theorem witness_EqualityLaws :
    variantOf (.uint8 5) = variantOf (.uint8 6) ∧ Value.uint8 255 ≠ .none := by decide

/-- Taken on two `None`, taken across variants, not taken. -/
theorem witness_JumpIfEqualComparesAndConsumes :
    (stateOn p1 [.none, .none]).ostack = .none :: .none :: []
      ∧ (stateOn p1 [.int16 (-1), .uint8 255]).ostack = .int16 (-1) :: .uint8 255 :: []
      ∧ (Value.uint8 255 ≠ .none ∧ num (.uint8 255) = conv (variantOf (.uint8 255)) (.int16 (-1)))
      ∧ (stateOn p1 [.uint8 0, .none]).ostack = .uint8 0 :: .none :: []
      ∧ ¬((Value.none = Value.none ∧ Value.uint8 0 = Value.none)
          ∨ (Value.none ≠ Value.none ∧ num .none = conv (variantOf .none) (.uint8 0))) := by decide

theorem witness_JumpIfZeroTestsTheWholeNumber :
    (stateOn p1 [.int8 (-1)]).ostack = .int8 (-1) :: [] ∧ num (.int8 (-1)) ≠ 0 ∧ num .none = 0 := by decide

/-- The first target past the end, and an operand that is no target. -/
theorem witness_JumpSetsTheCounterVerbatim :
    (stateOn p1 []).program.length ≤ (4 : Index).toNat
      ∧ (Operand.register .register1).isInstruction = false := by decide

theorem witness_CallPushesTheReturnAddressAndJumps :
    (∀ d, (strictOn p1 []).config.cstackDepth = some d → (strictOn p1 []).cstack.length < d)
      ∧ Operand.none.isInstruction = false := by
  refine ⟨fun d h => ?_, rfl⟩
  cases h; decide

theorem witness_ReturnPopsTheCallStackIntoTheCounter :
    ({ stateOn p1 [] with cstack := [.returnAddress 2] }).cstack = .returnAddress 2 :: []
      ∧ ({ stateOn p1 [] with cstack := [.uint64 2] }).cstack = .uint64 2 :: []
      ∧ variantOf (.uint64 2) ≠ .returnAddress ∧ (stateOn p1 []).cstack = [] := by decide

theorem witness_ExitAloneBreaksAndChangesNothing :
    ({ stateOn p1 [] with pc := 3 }).program[3]? = some (.exit .none)
      ∧ step { stateOn p1 [] with pc := 3 } = .next { stateOn p1 [] with pc := 3, report := .breaks } := ⟨rfl, rfl⟩

/-- A call, an inner call and its return in between, and the return. -/
theorem witness_BalancedReturnResumesAfterTheCall :
    let p := [.call (.instruction 2), .exit .none, .call (.instruction 4), .ret .none, .ret .none]
    let u := { stateOn p [] with cstack := [.returnAddress 1], pc := 2, report := .continues }
    let v := { stateOn p [] with cstack := [.returnAddress 1], pc := 3, report := .continues }
    (stateOn p []).program[0]? = some (.call (.instruction 2)) ∧ step (stateOn p []) = .next u
      ∧ StaysAbove u.cstack.length 2 u v ∧ v.cstack.length = u.cstack.length
      ∧ v.program[v.pc.toNat]? = some (.ret .none)
      ∧ step v = .next { stateOn p [] with pc := 1, report := .continues } :=
  ⟨rfl, rfl, ⟨le_refl 1, _, rfl, (by decide : 1 ≤ 2), _, rfl, rfl, le_refl 1⟩, rfl, rfl, rfl⟩

theorem witness_StackEmptyExactlyOnEmptyOperandStack :
    step (stateOn [.add .none] [.uint8 1]) = .next { stateOn [.add .none] [] with report := .errs .stackEmpty }
      ∧ hostPop (stateOn p1 []) = .error .stackEmpty := ⟨rfl, rfl⟩

theorem witness_InstructionExpectedExactlyOnMissingTarget :
    step (stateOn [.jumpIfZero (.register .register2)] [.uint8 0])
        = .next { stateOn [.jumpIfZero (.register .register2)] [] with report := .errs .instructionExpected }
      ∧ step { stateOn [.ret .none] [] with cstack := [.uint8 1] }
        = .next { stateOn [.ret .none] [] with report := .errs .instructionExpected } := ⟨rfl, rfl⟩

theorem witness_InstructionOverflowExactlyPastTheEnd :
    step { stateOn p1 [] with pc := 4 }
      = .next { stateOn p1 [] with pc := 4, report := .errs .instructionOverflow } := rfl

theorem witness_ValueAndRegisterExpectedExactlyOnWrongOperand :
    step (strictOn [.push .none] []) = .next { strictOn [.push .none] [] with report := .errs .valueExpected }
      ∧ step (stateOn [.pop .none] [.uint8 1])
        = .next { stateOn [.pop .none] [] with report := .errs .registerExpected } := ⟨rfl, rfl⟩

theorem witness_CallStackEmptyExactlyOnReturn :
    step (stateOn [.ret .none] []) = .next { stateOn [.ret .none] [] with report := .errs .callStackEmpty } := rfl

/-- Each listed case of a partial effect, and two cases in which nothing changed. -/
theorem witness_ErrorKeepsAllButTheListedCases :
    step (stateOn [.pop .none] [.uint8 1])
        = .next { stateOn [.pop .none] [] with report := .errs .registerExpected }
      ∧ step (stateOn [.jumpIfEqual .none] [.uint8 1])
        = .next { stateOn [.jumpIfEqual .none] [] with report := .errs .stackEmpty }
      ∧ step (stateOn [.jumpIfEqual .none] [.uint8 5, .uint8 5])
        = .next { stateOn [.jumpIfEqual .none] [] with report := .errs .instructionExpected }
      ∧ step (stateOn [.jumpIfZero .none] [.none])
        = .next { stateOn [.jumpIfZero .none] [] with report := .errs .instructionExpected }
      ∧ step (stateOn [.call .none] [])
        = .next { stateOn [.call .none] [] with
            cstack := [.returnAddress 1], report := .errs .instructionExpected }
      ∧ step { stateOn [.ret .none] [] with cstack := [.none] }
        = .next { stateOn [.ret .none] [] with report := .errs .instructionExpected }
      ∧ step (stateOn [.add .none] []) = .next { stateOn [.add .none] [] with report := .errs .stackEmpty }
      ∧ step (stateOn [.jump .none] [.none])
        = .next { stateOn [.jump .none] [.none] with report := .errs .instructionExpected } :=
  ⟨rfl, rfl, rfl, rfl, rfl, rfl, rfl, rfl⟩

/-- A constructed block meets the invariant. -/
theorem inv_stateOn_p1 : Inv (stateOn p1 []) :=
  { programFits := by decide
    callStack := fun v h => by cases h
    ostackFits := fun d h => by cases h
    cstackFits := fun d h => by cases h }

theorem witness_SuitedOperandNeverFailsOnItsKind :
    Inv (stateOn p1 []) ∧ (stateOn p1 []).config.pushNone = .pushes
      ∧ (stateOn p1 []).program[0]? = some (.push (.uint64 0)) ∧ (Instr.push (.uint64 0)).operandSuits = true
      ∧ step (stateOn p1 []) = .next { stateOn p1 [.uint64 0] with pc := 1, report := .continues } :=
  ⟨inv_stateOn_p1, rfl, rfl, rfl, rfl⟩

/-- A step of each report, and the host's two commands. -/
theorem witness_ProgramCounterChangesAsTheRuleSays :
    step (stateOn [.jumpIfZero (.instruction 9)] [.none])
        = .next { stateOn [.jumpIfZero (.instruction 9)] [] with pc := 9, report := .continues }
      ∧ step (stateOn [.exit .none] []) = .next { stateOn [.exit .none] [] with report := .breaks }
      ∧ step (stateOn [] []) = .next { stateOn [] [] with report := .errs .instructionOverflow }
      ∧ hostPush .none (stateOn p1 []) = .next (stateOn p1 [.none])
      ∧ hostPop (stateOn p1 [.none]) = .ok (.none, stateOn p1 []) := ⟨rfl, rfl, rfl, rfl, rfl⟩

theorem witness_OnlyPopWritesARegister :
    step (stateOn [.pop (.register .register9)] [.uint8 7])
        = .next { stateOn [.pop (.register .register9)] [] with
            regs := { RegBank.cleared with register9 := .uint8 7 }, pc := 1, report := .continues }
      ∧ Value.uint8 7 ≠ (stateOn [.pop (.register .register9)] [.uint8 7]).reg .register9 := ⟨rfl, by decide⟩

theorem witness_OtherInstructionsIgnoreTheBank :
    (∀ r, Instr.push .none ≠ .push (.register r)) ∧ (∀ r, Instr.push .none ≠ .pop (.register r)) :=
  ⟨fun _ h => (by cases h), fun _ h => (by cases h)⟩

theorem witness_OnlyCallAndReturnTouchTheCallStack :
    step (stateOn callReturn [])
        = .next { stateOn callReturn [] with cstack := [.returnAddress 1], pc := 2, report := .continues }
      ∧ [Value.returnAddress 1] ≠ (stateOn callReturn []).cstack := ⟨rfl, by decide⟩

theorem witness_OperandStackIsReachedAtItsTopOnly :
    step (stateOn [.jumpIfEqual .none] [.uint8 1, .uint8 2, .uint8 3])
      = .next { stateOn [.jumpIfEqual .none] [.uint8 3] with pc := 1, report := .continues } := rfl

theorem witness_InvariantHoldsAfterConstruct : programWellFormed p1 = true := by decide

/-- A state inside a call meets the invariant, and it steps. -/
theorem witness_EveryStepKeepsTheInvariant :
    let u := { stateOn callReturn [] with cstack := [.returnAddress 1], pc := 2, report := .continues }
    Inv u ∧ step u = .next { stateOn callReturn [] with pc := 1, report := .continues } := by
  refine ⟨⟨by decide, fun v h => ?_, fun _ h => (by cases h), fun _ h => (by cases h)⟩, rfl⟩
  rw [List.mem_singleton.1 h]
  exact ⟨0, 1, .instruction 2, rfl, rfl, rfl⟩

theorem witness_EveryCommandKeepsTheInvariant :
    (∀ s, (Port.ready (stateOn p1 [])).held = some s → Inv s)
      ∧ portRun [.issue (.push .none), .issue .pop, .issue .run, .work] (.ready (stateOn p1 []))
        = some (.running { stateOn p1 [.uint64 0] with pc := 1, report := .continues }) := by
  refine ⟨fun s h => ?_, rfl⟩
  cases h; exact inv_stateOn_p1

theorem witness_HostPushAndPopActOnTheTop :
    (∀ d, (strictOn p1 []).config.ostackDepth = some d → (strictOn p1 []).ostack.length < d)
      ∧ (strictOn p1 [.none]).config.ostackDepth = some 1 ∧ (strictOn p1 [.none]).ostack.length = 1
      ∧ (stateOn p1 [.none]).ostack = .none :: [] ∧ (stateOn p1 []).ostack = [] := by
  refine ⟨fun d h => ?_, rfl, rfl, rfl, rfl⟩
  cases h; decide

theorem witness_RunSucceedsExactlyAtExit :
    run 1 (stateOn [.exit .none] []) = .success { stateOn [.exit .none] [] with report := .breaks } := rfl

theorem witness_MoreFuelKeepsAFinishedRun :
    ∀ t, run 1 (stateOn [.exit .none] []) ≠ .stillRunning t := fun t h => by cases h

/-- A command that completes, and one that leaves the block dead. -/
theorem witness_PortAcceptsCommandsOnlyWhenReady :
    Command.reset ≠ .run ∧ portStep (.issue .reset) (.ready (stateOn p1 [])) = some (.ready (stateOn p1 []), some .done)
      ∧ portStep (.issue (.push .none)) (.ready (strictOn p1 [.none]))
        = some (.dead .stackOverflow, some (.fatal .stackOverflow)) := ⟨by decide, rfl, rfl⟩

/-- A step that goes on, and the three ends. -/
theorem witness_RunInProgressEndsOnlyAtExitOrFailure :
    portStep .work (.running (stateOn p1 []))
        = some (.running { stateOn p1 [.uint64 0] with pc := 1, report := .continues }, none)
      ∧ portStep .work (.running (stateOn [.exit .none] [])) = some (.ready (stateOn [.exit .none] []), some .success)
      ∧ portStep .work (.running (stateOn [] [])) = some (.ready (stateOn [] []), some (.error .instructionOverflow))
      ∧ portStep .work (.running (stateOn [.divide .none] [.none, .uint8 1]))
        = some (.dead .divideByZero, some (.fatal .divideByZero)) := ⟨rfl, rfl, rfl, rfl⟩

/-- An endless loop (spec R223): it runs on under any fuel. -/
theorem witness_PortRunEndsAsFueledRunDoes :
    (∀ fuel, ∃ t, run fuel (stateOn [.jump (.instruction 0)] []) = .stillRunning t)
      ∧ portRun [.issue .run, .work] (.ready (stateOn [.exit .none] [])) = some (.ready (stateOn [.exit .none] [])) := by
  refine ⟨fun fuel => ?_, rfl⟩
  have loop : ∀ n, run n { stateOn [.jump (.instruction 0)] [] with report := .continues }
      = .stillRunning { stateOn [.jump (.instruction 0)] [] with report := .continues } := by
    intro n
    induction n with
    | zero => rfl
    | succ n ih => exact ih
  cases fuel with
  | zero => exact ⟨_, rfl⟩
  | succ n => exact ⟨_, loop n⟩

theorem witness_StepIsTheBlocksStep :
    (perform .step (stateOn p1 [])).1 = .ready { stateOn p1 [.uint64 0] with pc := 1 }
      ∧ (runOnce (stateOn [.exit .none] [])).1 = .ready (stateOn [.exit .none] []) := ⟨rfl, rfl⟩

end Sys2Proof.Tests
end

section
/-! SUPPORT. The faults of every instruction, beside the next states that `NextOf` lists, and what is left of them under
the parameters spec R5 chooses. -/

namespace Sys2Proof.Machine

/-! ### All the faults -/

/-- The faults of a four-operation arithmetic instruction: the operation's own, or its result finds the stack full. -/
def ArithFault (op : ArithOp) (s : State) (f : Fault) : Prop :=
  ∃ l r rest, s.ostack = r :: l :: rest ∧
    (arith s.config.overflowPolicy op l r = .error f ∨
     (∃ v, arith s.config.overflowPolicy op l r = .ok v)
      ∧ stackFull s.config.ostackDepth rest.length = true ∧ f = .stackOverflow)

/-- The faults of each instruction, with the condition of each (spec R257 to R260). -/
def FaultOf (i : Instr) (s : State) (f : Fault) : Prop :=
  match i with
  | .push arg =>
    (∃ v, argValue arg s = .ok v) ∧ stackFull s.config.ostackDepth s.ostack.length = true ∧ f = .stackOverflow
  | .add _ => ArithFault .add s f
  | .subtract _ => ArithFault .sub s f
  | .multiply _ => ArithFault .mul s f
  | .divide _ => ArithFault .div s f
  | .call _ => stackFull s.config.cstackDepth s.cstack.length = true ∧ f = .stackOverflow
  | .pop _ => False
  | .jumpIfEqual _ => False
  | .jumpIfZero _ => False
  | .jump _ => False
  | .ret _ => False
  | .exit _ => False

theorem arithInstr_next_or_fault (op : ArithOp) (s : State) :
    (∃ t, arithInstr op s = .next t) ∨ ∃ f, ArithFault op s f ∧ arithInstr op s = .fault f := by
  rcases arithInstr_cases op s with ⟨_, e⟩ | ⟨l, r, rest, hs, ⟨_, _, _, e⟩ | ⟨v, hv, hfull, e⟩ | ⟨f, hf, e⟩⟩
  · exact .inl ⟨_, e⟩
  · exact .inl ⟨_, e⟩
  · exact .inr ⟨_, ⟨l, r, rest, hs, .inr ⟨⟨v, hv⟩, hfull, rfl⟩⟩, e⟩
  · exact .inr ⟨f, ⟨l, r, rest, hs, .inl hf⟩, e⟩

/-- Every instruction answers a next state in every state, or one of the faults `FaultOf` lists. -/
theorem exec_next_or_fault (i : Instr) (s : State) :
    (∃ t, exec i s = .next t) ∨ ∃ f, FaultOf i s f ∧ exec i s = .fault f := by
  cases i with
  | push arg =>
    rcases execPush_cases arg s with ⟨_, _, _, e⟩ | ⟨v, hv, hfull, e⟩ | ⟨_, e⟩
    · exact .inl ⟨_, e⟩
    · exact .inr ⟨_, ⟨⟨v, hv⟩, hfull, rfl⟩, e⟩
    · exact .inl ⟨_, e⟩
  | pop arg =>
    rcases execPop_cases arg s with ⟨_, e⟩ | ⟨_, _, _, _, _, e⟩ | ⟨_, _, _, _, e⟩ <;> exact .inl ⟨_, e⟩
  | add arg => exact arithInstr_next_or_fault .add s
  | subtract arg => exact arithInstr_next_or_fault .sub s
  | multiply arg => exact arithInstr_next_or_fault .mul s
  | divide arg => exact arithInstr_next_or_fault .div s
  | jumpIfEqual arg =>
    rcases execJumpIfEqual_cases arg s with ⟨_, e⟩ | ⟨_, _, _, _, ⟨_, _, _, e⟩ | ⟨_, _, e⟩ | ⟨_, e⟩⟩ <;>
      exact .inl ⟨_, e⟩
  | exit arg => exact .inl ⟨_, execExit_eq arg s⟩
  | jumpIfZero arg =>
    rcases execJumpIfZero_cases arg s with ⟨_, e⟩ | ⟨_, _, _, ⟨_, _, _, e⟩ | ⟨_, _, e⟩ | ⟨_, e⟩⟩ <;>
      exact .inl ⟨_, e⟩
  | call arg =>
    rcases execCall_cases arg s with ⟨hfull, e⟩ | ⟨_, _, _, e⟩ | ⟨_, _, e⟩
    · exact .inr ⟨_, ⟨hfull, rfl⟩, e⟩
    · exact .inl ⟨_, e⟩
    · exact .inl ⟨_, e⟩
  | ret arg =>
    rcases execReturn_cases arg s with ⟨_, e⟩ | ⟨_, _, _, e⟩ | ⟨_, _, _, _, e⟩ <;> exact .inl ⟨_, e⟩
  | jump arg =>
    rcases execJump_cases arg s with ⟨_, _, e⟩ | ⟨_, e⟩ <;> exact .inl ⟨_, e⟩

/-! ### The faults under the chosen parameters -/

/-- Under the policy `wrap` the ALU fails on a zero divisor alone. -/
theorem arith_wrap_eq_error {op : ArithOp} {l r : Value} {f : Fault} (h : arith .wrap op l r = .error f) :
    op = .div ∧ f = .divideByZero := by
  by_cases hl : l = .none
  · subst hl
    rw [arith_none] at h
    cases h
  · rcases arith_cases .wrap op hl r with ⟨hop, _, e⟩ | ⟨_, hpolicy, _, _⟩ | ⟨_, _, e⟩
    · rw [e] at h
      cases h
      exact ⟨hop, rfl⟩
    · cases hpolicy
    · rw [e] at h
      cases h

/-- The chosen stacks are unbounded and the chosen policy wraps, so of the faults of arithmetic only the zero divisor
is left. -/
theorem ArithFault.of_chosen {op : ArithOp} {s : State} {f : Fault} (hc : s.config = Config.chosen)
    (h : ArithFault op s f) : op = .div ∧ f = .divideByZero := by
  obtain ⟨l, r, rest, -, herr | ⟨-, hfull, -⟩⟩ := h
  · rw [hc] at herr
    exact arith_wrap_eq_error herr
  · rw [hc] at hfull
    cases hfull

/-- Under the chosen parameters the one fault is `Divide`'s `DivideByZero`. -/
theorem FaultOf.of_chosen {i : Instr} {s : State} {f : Fault} (hc : s.config = Config.chosen)
    (h : FaultOf i s f) : i.opcode = .divide ∧ f = .divideByZero := by
  cases i with
  | push arg =>
    obtain ⟨-, hfull, -⟩ := h
    rw [hc] at hfull
    cases hfull
  | call arg =>
    obtain ⟨hfull, -⟩ := h
    rw [hc] at hfull
    cases hfull
  | divide arg => exact ⟨rfl, (ArithFault.of_chosen hc h).2⟩
  | add arg | subtract arg | multiply arg => cases (ArithFault.of_chosen hc h).1
  | pop arg | jumpIfEqual arg | jumpIfZero arg | jump arg | ret arg | exit arg => exact h.elim

/-- Settles O9: an instruction answers a next state or a fault of `FaultOf`, and under the chosen parameters the only
such fault is `Divide`'s. -/
theorem chosenParametersStopOnlyOnDivideByZero : Obligations.ChosenParametersStopOnlyOnDivideByZero := by
  intro s i hc
  rcases exec_next_or_fault i s with hnext | ⟨f, hf, he⟩
  · exact ⟨.inl hnext, fun _ => hnext⟩
  · obtain ⟨hdivide, rfl⟩ := FaultOf.of_chosen hc hf
    exact ⟨.inr he, fun hne => absurd hdivide hne⟩

end Sys2Proof.Machine
end

section
/-! SUPPORT. What a step can do to the state, seen by its parts: the four ways to touch the registers and the stacks
(`StepEffect`), and from them the frame of a step and the invariant of every reachable state. -/

namespace Sys2Proof.Machine

/-! ### The effect of a step on the registers and the stacks -/

/-- `st'` is `st` with at most two values taken from its top and at most one put on it, which finds room (spec R39,
R62). -/
def TopMoved (depth : Option Nat) (st st' : List Value) : Prop :=
  ∃ k ≤ 2, st' = st.drop k ∨ stackFull depth (st.drop k).length = false ∧ ∃ v, st' = v :: st.drop k

theorem TopMoved.refl (depth : Option Nat) (st : List Value) : TopMoved depth st st := ⟨0, by omega, .inl rfl⟩

theorem TopMoved.push {depth : Option Nat} {st : List Value} (v : Value) (h : stackFull depth st.length = false) :
    TopMoved depth st (v :: st) :=
  ⟨0, by omega, .inr ⟨h, v, rfl⟩⟩

theorem TopMoved.pop_one {depth : Option Nat} {st rest : List Value} {v : Value} (h : st = v :: rest) :
    TopMoved depth st rest :=
  ⟨1, by omega, .inl (by rw [h]; rfl)⟩

theorem TopMoved.pop_two {depth : Option Nat} {st rest : List Value} {l r : Value} (h : st = r :: l :: rest) :
    TopMoved depth st rest :=
  ⟨2, by omega, .inl (by rw [h]; rfl)⟩

theorem TopMoved.pop_two_push {depth : Option Nat} {st rest : List Value} {l r : Value} (v : Value)
    (h : st = r :: l :: rest) (hroom : stackFull depth rest.length = false) : TopMoved depth st (v :: rest) :=
  ⟨2, by omega, .inr (by rw [h]; exact ⟨hroom, v, rfl⟩)⟩

/-- A pop of two values that finds fewer loses what there is (spec R182). -/
theorem TopMoved.of_length_lt_two {depth : Option Nat} {st : List Value} (h : st.length < 2) :
    TopMoved depth st [] :=
  ⟨2, by omega, .inl (List.drop_eq_nil_of_le (by omega)).symm⟩

/-- All that a step which answers a next state does to the registers and the two stacks: it moves the top of the operand
stack, or it is a `Pop` into a register, a `Call` or a `Return`. Nothing else but `pc` and the report changes. -/
inductive StepEffect (s : State) : State → Prop
  | moves {st : List Value} (pc : Index) (r : StepReport) (hst : TopMoved s.config.ostackDepth s.ostack st) :
      StepEffect s (((s.setOstack st).setPc pc).setReport r)
  | stores {r : Reg} {v : Value} {rest : List Value} (hi : s.program[s.pc.toNat]? = some (.pop (.register r)))
      (hst : s.ostack = v :: rest) : StepEffect s ((s.setReg r v).advanced rest)
  | calls {arg : Operand} (pc : Index) (r : StepReport) (hi : s.program[s.pc.toNat]? = some (.call arg))
      (hroom : stackFull s.config.cstackDepth s.cstack.length = false) :
      StepEffect s ((s.called.setPc pc).setReport r)
  | returns {arg : Operand} {v : Value} {rest : List Value} (pc : Index) (r : StepReport)
      (hi : s.program[s.pc.toNat]? = some (.ret arg)) (hst : s.cstack = v :: rest) :
      StepEffect s (((s.setCstack rest).setPc pc).setReport r)

/-- A step that touches nothing but `pc` and the report. -/
theorem StepEffect.keeps (s : State) (pc : Index) (r : StepReport) : StepEffect s ((s.setPc pc).setReport r) :=
  .moves pc r (TopMoved.refl _ s.ostack)

theorem ArithNext.effect {s t : State} (h : ArithNext s t) : StepEffect s t := by
  rcases h with ⟨hlen, rfl⟩ | ⟨l, r, rest, v, hst, hroom, rfl⟩
  · exact .moves s.pc _ (.of_length_lt_two hlen)
  · exact .moves _ _ (.pop_two_push v hst hroom)

theorem JumpNext.effect {taken : Bool} {arg : Operand} {rest : List Value} {s t : State}
    (hst : TopMoved s.config.ostackDepth s.ostack rest) (h : JumpNext taken arg rest s t) : StepEffect s t := by
  rcases h with ⟨-, k, -, rfl⟩ | ⟨-, -, rfl⟩ | ⟨-, rfl⟩
  · exact .moves k _ hst
  · exact .moves s.pc _ hst
  · exact .moves _ _ hst

theorem NextOf.effect {i : Instr} {s t : State} (hi : s.program[s.pc.toNat]? = some i) (h : NextOf i s t) :
    StepEffect s t := by
  cases i with
  | push arg =>
    rcases h with ⟨v, -, hroom, rfl⟩ | ⟨-, rfl⟩
    · exact .moves _ _ (.push v hroom)
    · exact .keeps s s.pc _
  | pop arg =>
    rcases h with ⟨-, rfl⟩ | ⟨v, rest, r, hst, rfl, rfl⟩ | ⟨v, rest, hst, -, rfl⟩
    · exact .keeps s s.pc _
    · exact .stores hi hst
    · exact .moves s.pc _ (.pop_one hst)
  | add arg | subtract arg | multiply arg | divide arg => exact ArithNext.effect h
  | jumpIfEqual arg =>
    rcases h with ⟨hlen, rfl⟩ | ⟨l, r, rest, hst, hjump⟩
    · exact .moves s.pc _ (.of_length_lt_two hlen)
    · exact hjump.effect (.pop_two hst)
  | jumpIfZero arg =>
    rcases h with ⟨-, rfl⟩ | ⟨v, rest, hst, hjump⟩
    · exact .keeps s s.pc _
    · exact hjump.effect (.pop_one hst)
  | jump arg =>
    rcases h with ⟨k, -, rfl⟩ | ⟨-, rfl⟩
    · exact .keeps s k _
    · exact .keeps s s.pc _
  | call arg =>
    obtain ⟨hroom, ⟨k, -, rfl⟩ | ⟨-, rfl⟩⟩ := h
    · exact .calls k _ hi hroom
    · exact .calls s.pc _ hi hroom
  | ret arg =>
    rcases h with ⟨-, rfl⟩ | ⟨a, rest, hst, rfl⟩ | ⟨v, rest, hst, -, rfl⟩
    · exact .keeps s s.pc _
    · exact .returns a _ hi hst
    · exact .returns s.pc _ hi hst
  | exit arg =>
    subst h
    exact .keeps s s.pc _

theorem step_effect {s t : State} (h : step s = .next t) : StepEffect s t := by
  rcases step_next h with ⟨-, rfl⟩ | ⟨i, hi, hnext⟩
  · exact .keeps s s.pc _
  · exact hnext.effect hi

theorem StepEffect.program_eq {s t : State} (h : StepEffect s t) : t.program = s.program := by
  cases h <;> rfl

theorem StepEffect.config_eq {s t : State} (h : StepEffect s t) : t.config = s.config := by
  cases h <;> rfl

/-- The operand stack after any step; a `Pop` into a register is one of the moves. -/
theorem StepEffect.topMoved {s t : State} (h : StepEffect s t) :
    TopMoved s.config.ostackDepth s.ostack t.ostack := by
  cases h with
  | moves pc r hst => exact hst
  | stores hi hst => exact .pop_one hst
  | calls pc r hi hroom => exact .refl _ _
  | returns pc r hi hst => exact .refl _ _

/-! ### The frame of a step -/

/-- Settles O47: of the four effects only the `Pop` into a register touches the bank, and it sets the one register it
names. -/
theorem onlyPopWritesARegister : Obligations.OnlyPopWritesARegister := by
  intro s t q hstep hne
  cases step_effect hstep with
  | moves | calls | returns => exact absurd rfl hne
  | @stores r v rest hi hst =>
    have hget : ((s.setReg r v).advanced rest).reg q = if q = r then v else s.reg q :=
      RegBank.get_set s.regs r q v
    by_cases hq : q = r
    · subst hq
      rw [if_pos rfl] at hget
      exact ⟨hi, rest, by rw [hget]; exact hst⟩
    · rw [if_neg hq] at hget
      exact absurd hget hne

/-- Settles O49: of the four effects only those of `Call` and `Return` touch the call stack. -/
theorem onlyCallAndReturnTouchTheCallStack : Obligations.OnlyCallAndReturnTouchTheCallStack := by
  intro s t hstep hne
  cases step_effect hstep with
  | moves | stores => exact absurd rfl hne
  | calls pc r hi hroom => exact .inl ⟨_, hi, rfl⟩
  | returns pc r hi hst => exact .inr ⟨_, _, hi, hst⟩

/-- Settles O50: what lies below the two top values is a suffix of what `TopMoved` leaves. -/
theorem operandStackIsReachedAtItsTopOnly : Obligations.OperandStackIsReachedAtItsTopOnly := by
  intro s t hstep
  obtain ⟨k, hk, hmove⟩ := (step_effect hstep).topMoved
  have hsuffix : s.ostack.drop 2 <:+ s.ostack.drop k := List.drop_suffix_drop_left _ hk
  rcases hmove with ht | ⟨-, v, ht⟩ <;> rw [ht]
  · rw [List.length_drop]
    exact ⟨hsuffix, by omega, by omega⟩
  · rw [List.length_cons, List.length_drop]
    exact ⟨hsuffix.trans (List.suffix_cons v _), by omega, by omega⟩

/-! ### The invariant -/

theorem WithinDepth.nil (depth : Option Nat) : WithinDepth depth [] := fun _ _ => Nat.zero_le _

theorem WithinDepth.of_length_le {depth : Option Nat} {st st' : List Value} (h : WithinDepth depth st)
    (hle : st'.length ≤ st.length) : WithinDepth depth st' :=
  fun d hd => hle.trans (h d hd)

theorem WithinDepth.cons {depth : Option Nat} {st : List Value} (v : Value)
    (hroom : stackFull depth st.length = false) : WithinDepth depth (v :: st) :=
  fun d hd => stackFull_eq_false_iff.1 hroom d hd

theorem WithinDepth.of_topMoved {depth : Option Nat} {st st' : List Value} (h : WithinDepth depth st)
    (hmove : TopMoved depth st st') : WithinDepth depth st' := by
  obtain ⟨k, -, rfl | ⟨hroom, v, rfl⟩⟩ := hmove
  · exact h.of_length_le (by simp)
  · exact .cons v hroom

/-- The return address that a `Call` pushes is one past that `Call`: `pc + 1` does not wrap, since `pc` lies below
`PROG_LEN`, which is below `2^64` (spec R5, R224). -/
theorem isReturnSite_of_call {s : State} {arg : Operand} (hfits : programWellFormed s.program = true)
    (hi : s.program[s.pc.toNat]? = some (.call arg)) : IsReturnSite s.program (.returnAddress (s.pc + 1)) := by
  have hlen : s.program.length < 2 ^ 64 := of_decide_eq_true hfits
  have hpc : s.pc.toNat < s.program.length := (List.getElem?_eq_some_iff.1 hi).1
  have hsucc : (s.pc + 1).toNat = s.pc.toNat + 1 := by
    rw [BitVec.toNat_add, show (1 : Index).toNat = 1 from rfl, Nat.mod_eq_of_lt (by omega)]
  exact ⟨s.pc.toNat, s.pc + 1, arg, rfl, hsucc, hi⟩

theorem Inv.of_effect {s t : State} (hs : Inv s) (h : StepEffect s t) : Inv t := by
  obtain ⟨hfits, hcalls, host, hcst⟩ := hs
  have host' : WithinDepth s.config.ostackDepth t.ostack := host.of_topMoved h.topMoved
  cases h with
  | moves pc r hst => exact ⟨hfits, hcalls, host', hcst⟩
  | stores hi hst => exact ⟨hfits, hcalls, host', hcst⟩
  | calls pc r hi hroom =>
    exact ⟨hfits, List.forall_mem_cons.2 ⟨isReturnSite_of_call hfits hi, hcalls⟩, host', .cons _ hroom⟩
  | @returns arg v rest pc r hi hst =>
    have hrest : rest <:+ s.cstack := hst ▸ List.suffix_cons v rest
    exact ⟨hfits, fun v hv => hcalls v (hrest.subset hv), host', hcst.of_length_le hrest.length_le⟩

/-- Settles O52: each of the four effects of a step keeps the invariant. -/
theorem everyStepKeepsTheInvariant : Obligations.EveryStepKeepsTheInvariant :=
  fun _ _ hs hstep => hs.of_effect (step_effect hstep)

/-- The constructed block, and therefore every `reset`, meets the invariant: both its stacks are empty. -/
theorem Inv.construct (cfg : Config) {p : List Instr} (hp : programWellFormed p = true) :
    Inv (State.construct cfg p) :=
  ⟨hp, List.forall_mem_nil _, .nil _, .nil _⟩

/-- Settles O51. -/
theorem invariantHoldsAfterConstruct : Obligations.InvariantHoldsAfterConstruct :=
  ⟨fun cfg _ hp => Inv.construct cfg hp, Inv.construct Config.chosen rfl⟩

/-- Settles O1: every field of the constructed state by its law. -/
theorem constructAndResetLeaveResetState : Obligations.ConstructAndResetLeaveResetState := by
  have hregs : ∀ (cfg : Config) (p : List Instr) (r : Reg), (State.construct cfg p).reg r = .none :=
    fun _ _ r => RegBank.cleared_get r
  exact ⟨fun cfg p => ⟨rfl, hregs cfg p, rfl, rfl, rfl⟩, fun s => ⟨rfl, hregs s.config s.program, rfl, rfl, rfl⟩⟩

end Sys2Proof.Machine
end

section
/-! SUPPORT. How a step changes `pc` (spec R37), with the report that goes with each change. -/

namespace Sys2Proof.Machine

/-- Where a conditional jump that completes leaves `pc` (spec R220). -/
def PcAfterJump (taken : Prop) (arg : Operand) (s t : State) : Prop :=
  (taken → arg = .instruction t.pc) ∧ (¬taken → t.pc = s.pc + 1)

theorem PcAfterJump.ite {taken : Prop} [Decidable taken] {arg : Operand} {s t : State}
    (h : PcAfterJump taken arg s t) : if taken then arg = .instruction t.pc else t.pc = s.pc + 1 := by
  split
  · exact h.1 ‹_›
  · exact h.2 ‹_›

/-- Where each instruction leaves `pc` when its step continues (spec R37, R177, R220). -/
def PcAfter (i : Instr) (s t : State) : Prop :=
  match i with
  | .push _ | .pop _ | .add _ | .subtract _ | .multiply _ | .divide _ => t.pc = s.pc + 1
  | .jumpIfEqual arg => ∃ l r rest, s.ostack = r :: l :: rest ∧ PcAfterJump (condEqual l r = true) arg s t
  | .jumpIfZero arg => ∃ v rest, s.ostack = v :: rest ∧ PcAfterJump (num v = 0) arg s t
  | .jump arg | .call arg => arg = .instruction t.pc
  | .ret _ => ∃ rest, s.cstack = .returnAddress t.pc :: rest
  | .exit _ => False

/-- A step either stops with an error or at `Exit`, where `pc` stays, or continues, with `pc` as `after` says. -/
def PcOutcome (s t : State) (after : Prop) : Prop :=
  ((∃ kind, t.report = .errs kind) ∧ t.pc = s.pc) ∨ (t.report = .breaks ∧ t.pc = s.pc) ∨
  (t.report = .continues ∧ after)

theorem PcOutcome.mono {s t : State} {P Q : Prop} (h : PcOutcome s t P) (hPQ : P → Q) : PcOutcome s t Q :=
  Or.imp_right (Or.imp_right (And.imp_right hPQ)) h

theorem ArithNext.pcOutcome {s t : State} (h : ArithNext s t) : PcOutcome s t (t.pc = s.pc + 1) := by
  rcases h with ⟨-, rfl⟩ | ⟨l, r, rest, v, -, -, rfl⟩
  · exact .inl ⟨⟨_, rfl⟩, rfl⟩
  · exact .inr (.inr ⟨rfl, rfl⟩)

theorem JumpNext.pcOutcome {taken : Bool} {arg : Operand} {rest : List Value} {s t : State}
    (h : JumpNext taken arg rest s t) : PcOutcome s t (PcAfterJump (taken = true) arg s t) := by
  rcases h with ⟨rfl, k, harg, rfl⟩ | ⟨-, -, rfl⟩ | ⟨rfl, rfl⟩
  · exact .inr (.inr ⟨rfl, fun _ => harg, fun hn => absurd rfl hn⟩)
  · exact .inl ⟨⟨_, rfl⟩, rfl⟩
  · exact .inr (.inr ⟨rfl, nofun, fun _ => rfl⟩)

theorem NextOf.pcOutcome {i : Instr} {s t : State} (h : NextOf i s t) : PcOutcome s t (PcAfter i s t) := by
  cases i with
  | push arg =>
    rcases h with ⟨v, -, -, rfl⟩ | ⟨-, rfl⟩
    · exact .inr (.inr ⟨rfl, rfl⟩)
    · exact .inl ⟨⟨_, rfl⟩, rfl⟩
  | pop arg =>
    rcases h with ⟨-, rfl⟩ | ⟨v, rest, r, -, -, rfl⟩ | ⟨v, rest, -, -, rfl⟩
    · exact .inl ⟨⟨_, rfl⟩, rfl⟩
    · exact .inr (.inr ⟨rfl, rfl⟩)
    · exact .inl ⟨⟨_, rfl⟩, rfl⟩
  | add arg | subtract arg | multiply arg | divide arg => exact ArithNext.pcOutcome h
  | jumpIfEqual arg =>
    rcases h with ⟨-, rfl⟩ | ⟨l, r, rest, hst, hjump⟩
    · exact .inl ⟨⟨_, rfl⟩, rfl⟩
    · exact hjump.pcOutcome.mono fun hpc => ⟨l, r, rest, hst, hpc⟩
  | jumpIfZero arg =>
    rcases h with ⟨-, rfl⟩ | ⟨v, rest, hst, hjump⟩
    · exact .inl ⟨⟨_, rfl⟩, rfl⟩
    · have htaken : (condZero v = true) = (num v = 0) := by rw [condZero_eq, decide_eq_true_eq]
      exact hjump.pcOutcome.mono fun hpc => ⟨v, rest, hst, htaken ▸ hpc⟩
  | jump arg =>
    rcases h with ⟨k, harg, rfl⟩ | ⟨-, rfl⟩
    · exact .inr (.inr ⟨rfl, harg⟩)
    · exact .inl ⟨⟨_, rfl⟩, rfl⟩
  | call arg =>
    obtain ⟨-, ⟨k, harg, rfl⟩ | ⟨-, rfl⟩⟩ := h
    · exact .inr (.inr ⟨rfl, harg⟩)
    · exact .inl ⟨⟨_, rfl⟩, rfl⟩
  | ret arg =>
    rcases h with ⟨-, rfl⟩ | ⟨a, rest, hst, rfl⟩ | ⟨v, rest, -, -, rfl⟩
    · exact .inl ⟨⟨_, rfl⟩, rfl⟩
    · exact .inr (.inr ⟨rfl, rest, hst⟩)
    · exact .inl ⟨⟨_, rfl⟩, rfl⟩
  | exit arg =>
    subst h
    exact .inr (.inl ⟨rfl, rfl⟩)

theorem step_pcOutcome {s t : State} (h : step s = .next t) :
    PcOutcome s t (∃ i, s.program[s.pc.toNat]? = some i ∧ PcAfter i s t) := by
  rcases step_next h with ⟨-, rfl⟩ | ⟨i, hi, hnext⟩
  · exact .inl ⟨⟨_, rfl⟩, rfl⟩
  · exact hnext.pcOutcome.mono fun hpc => ⟨i, hi, hpc⟩

/-- Every step reports its outcome (spec R9). -/
theorem step_report_ne_notStepped {s t : State} (h : step s = .next t) : t.report ≠ .notStepped := by
  rcases step_pcOutcome h with ⟨⟨kind, hr⟩, -⟩ | ⟨hr, -⟩ | ⟨hr, -⟩ <;> rw [hr] <;> nofun

theorem hostPush_pc {s t : State} {v : Value} (h : hostPush v s = .next t) : t.pc = s.pc := by
  rcases hostPush_cases v s with ⟨-, e⟩ | ⟨-, e⟩ <;> rw [e] at h <;> cases h
  rfl

theorem hostPop_pc {s t : State} {v : Value} (h : hostPop s = .ok (v, t)) : t.pc = s.pc := by
  rcases hostPop_cases s with ⟨-, e⟩ | ⟨_, rest, -, e⟩ <;> rw [e] at h <;> cases h
  rfl

/-- Settles O46: the three outcomes of a step exclude each other by their reports, and `PcAfter` is the rule of the
outcome that continues. -/
theorem programCounterChangesAsTheRuleSays : Obligations.ProgramCounterChangesAsTheRuleSays := by
  refine ⟨fun s t hstep => ?_, fun _ _ _ => hostPush_pc, fun _ _ _ => hostPop_pc, fun _ => rfl⟩
  rcases step_pcOutcome hstep with ⟨⟨kind, hr⟩, hpc⟩ | ⟨hr, hpc⟩ | ⟨hr, i, hi, hpc⟩ <;> rw [hr]
  · exact ⟨fun _ => hpc, nofun, nofun, nofun⟩
  · exact ⟨nofun, fun _ => hpc, nofun, nofun⟩
  · refine ⟨nofun, nofun, fun _ => ⟨i, hi, ?_⟩, nofun⟩
    cases i with
    | jumpIfEqual arg =>
      obtain ⟨l, r, rest, hst, hjump⟩ := hpc
      exact ⟨l, r, rest, hst, hjump.ite⟩
    | jumpIfZero arg =>
      obtain ⟨v, rest, hst, hjump⟩ := hpc
      exact ⟨v, rest, hst, hjump.ite⟩
    | _ => exact hpc

end Sys2Proof.Machine
end

section
/-! SUPPORT. Changes of the state that an instruction does not read commute with it: the report, which no instruction
reads, and the register bank, which only `Push` and `Pop` of a register touch. -/

namespace Sys2Proof.Machine

/-- `g` on the next state of a result; a fault stays a fault. -/
def mapNext (g : State → State) (o : Result) : Result :=
  match o with
  | .next t => .next (g t)
  | .fault f => .fault f
  | .refused q => .refused q

@[simp] theorem mapNext_next (g : State → State) (t : State) : mapNext g (.next t) = .next (g t) := rfl

theorem mapNext_id (o : Result) : mapNext id o = o := by cases o <;> rfl

theorem withBank_eq_mapNext (b : RegBank) (o : Result) : withBank b o = mapNext (·.setRegs b) o := by
  cases o <;> rfl

/-- `f` changes a state in nothing that the operations of an instruction read but the registers, and they carry it
along; once the step has reported, `g` is what is left of it. -/
structure Unread (f g : State → State) : Prop where
  pc : ∀ s, (f s).pc = s.pc
  ostack : ∀ s, (f s).ostack = s.ostack
  cstack : ∀ s, (f s).cstack = s.cstack
  config : ∀ s, (f s).config = s.config
  setPc : ∀ s t, (f s).setPc t = f (s.setPc t)
  setOstack : ∀ s st, (f s).setOstack st = f (s.setOstack st)
  setCstack : ∀ s st, (f s).setCstack st = f (s.setCstack st)
  setReport : ∀ s r, (f s).setReport r = g (s.setReport r)

/-- The report is unread, and the step's own report leaves nothing of it. -/
theorem unread_setReport (r : StepReport) : Unread (·.setReport r) id := by
  constructor <;> intros <;> rfl

theorem unread_setRegs (b : RegBank) : Unread (·.setRegs b) (·.setRegs b) := by
  constructor <;> intros <;> rfl

section
variable {f g : State → State} (hu : Unread f g)
include hu

/-! ### The shared operations -/

theorem Unread.raiseError (kind : ErrorKind) (s : State) : raiseError kind (f s) = mapNext g (raiseError kind s) := by
  rw [raiseError_eq, raiseError_eq, hu.setReport, mapNext_next]

theorem Unread.orRaise {α : Type} {e : Except ErrorKind α} {s : State} {k k' : α → Result}
    (hk : ∀ a, k' a = mapNext g (k a)) : orRaise e (f s) k' = mapNext g (orRaise e s k) := by
  cases e with
  | ok a => exact hk a
  | error kind => exact hu.raiseError kind s

theorem Unread.advance (s : State) : advance (f s) = mapNext g (advance s) := by
  rw [advance_eq, advance_eq, hu.pc, hu.setPc, hu.setReport, mapNext_next]

theorem Unread.jumpTo (t : Index) (s : State) : jumpTo t (f s) = mapNext g (jumpTo t s) := by
  rw [jumpTo_eq, jumpTo_eq, hu.setPc, hu.setReport, mapNext_next]

theorem Unread.opop {s : State} {k k' : Value × State → Result}
    (hk : ∀ v t, k' (v, f t) = mapNext g (k (v, t))) :
    Machine.orRaise (opop (f s)) (f s) k' = mapNext g (Machine.orRaise (opop s) s k) := by
  cases hst : s.ostack with
  | nil => rw [opop_of_nil hst, opop_of_nil ((hu.ostack s).trans hst)]; exact hu.raiseError _ s
  | cons v rest =>
    rw [opop_of_cons hst, opop_of_cons ((hu.ostack s).trans hst), hu.setOstack]
    exact hk v _

theorem Unread.cpop {s : State} {k k' : Value × State → Result}
    (hk : ∀ v t, k' (v, f t) = mapNext g (k (v, t))) :
    Machine.orRaise (cpop (f s)) (f s) k' = mapNext g (Machine.orRaise (cpop s) s k) := by
  cases hst : s.cstack with
  | nil => rw [cpop_of_nil hst, cpop_of_nil ((hu.cstack s).trans hst)]; exact hu.raiseError _ s
  | cons v rest =>
    rw [cpop_of_cons hst, cpop_of_cons ((hu.cstack s).trans hst), hu.setCstack]
    exact hk v _

theorem Unread.opush {v : Value} {s : State} {k : State → Result} (hk : ∀ t, k (f t) = mapNext g (k t)) :
    orFatal (opush v (f s)) k = mapNext g (orFatal (opush v s) k) := by
  rw [Machine.opush, Machine.opush, hu.config, hu.ostack, hu.setOstack]
  split
  · rfl
  · exact hk _

theorem Unread.cpush {v : Value} {s : State} {k : State → Result} (hk : ∀ t, k (f t) = mapNext g (k t)) :
    orFatal (cpush v (f s)) k = mapNext g (orFatal (cpush v s) k) := by
  rw [Machine.cpush, Machine.cpush, hu.config, hu.cstack, hu.setCstack]
  split
  · rfl
  · exact hk _

theorem Unread.withTwo {s : State} {k : Value → Value → State → Result}
    (hk : ∀ l r t, k l r (f t) = mapNext g (k l r t)) : withTwo (f s) k = mapNext g (withTwo s k) :=
  hu.opop fun _ _ => hu.opop fun _ _ => hk _ _ _

theorem Unread.takeJump (arg : Operand) (s : State) : takeJump arg (f s) = mapNext g (takeJump arg s) :=
  hu.orRaise fun t => hu.jumpTo t s

theorem Unread.jumpWhen (taken : Bool) (arg : Operand) (s : State) :
    jumpWhen taken arg (f s) = mapNext g (jumpWhen taken arg s) := by
  cases taken with
  | true => exact hu.takeJump arg s
  | false => exact hu.advance s

theorem Unread.arithInstr (op : ArithOp) (s : State) : arithInstr op (f s) = mapNext g (arithInstr op s) := by
  refine hu.withTwo fun l r t => ?_
  rw [hu.config]
  cases arith t.config.overflowPolicy op l r with
  | ok v => exact hu.opush hu.advance
  | error kind => rfl

/-! ### The instructions -/

/-- An instruction carries an unread change along; `Push` and `Pop` do where the change leaves their register alone. -/
theorem Unread.exec {i : Instr} {s : State} (hpush : ∀ arg, i = .push arg → argValue arg (f s) = argValue arg s)
    (hpop : ∀ r, i = .pop (.register r) → ∀ t v, (f t).setReg r v = f (t.setReg r v)) :
    exec i (f s) = mapNext g (exec i s) := by
  cases i with
  | push arg =>
    rw [Machine.exec, Machine.exec, execPush, execPush, hpush arg rfl]
    exact hu.orRaise fun v => hu.opush hu.advance
  | pop arg =>
    refine hu.opop fun v t => ?_
    rcases argRegister_cases arg with ⟨r, rfl, hr⟩ | ⟨-, hr⟩ <;> simp only [hr]
    · rw [orRaise_ok, orRaise_ok, hpop r rfl]
      exact hu.advance _
    · exact hu.raiseError _ t
  | add arg => exact hu.arithInstr .add s
  | subtract arg => exact hu.arithInstr .sub s
  | multiply arg => exact hu.arithInstr .mul s
  | divide arg => exact hu.arithInstr .div s
  | jumpIfEqual arg => exact hu.withTwo fun l r t => hu.jumpWhen _ arg t
  | jumpIfZero arg => exact hu.opop fun v t => hu.jumpWhen _ arg t
  | jump arg => exact hu.takeJump arg s
  | call arg =>
    rw [Machine.exec, Machine.exec, execCall, execCall, hu.pc]
    exact hu.cpush fun t => hu.takeJump arg t
  | ret arg =>
    refine hu.cpop fun v t => ?_
    cases v with
    | returnAddress a => exact hu.jumpTo a t
    | _ => exact hu.raiseError _ t
  | exit arg => exact congrArg Host.Outcome.next (hu.setReport s .breaks)

end

theorem exec_setReport (i : Instr) (s : State) (r : StepReport) : exec i (s.setReport r) = exec i s := by
  rw [(unread_setReport r).exec (fun arg _ => by cases arg <;> rfl) (fun _ _ _ _ => rfl), mapNext_id]

/-- Settles O4: the fetch does not read the report, and `exec_setReport`. -/
theorem stepNeverReadsTheReport : Obligations.StepNeverReadsTheReport := by
  intro s r
  rcases step_cases s with ⟨hfetch, e⟩ | ⟨i, hfetch, e⟩
  · exact (step_of_past_end (s := s.setReport r) hfetch).trans e.symm
  · exact (step_of_fetch (s := s.setReport r) hfetch).trans ((exec_setReport i s r).trans e.symm)

/-- Settles O48: replacing the bank is unread by every instruction but the two that name a register. -/
theorem otherInstructionsIgnoreTheBank : Obligations.OtherInstructionsIgnoreTheBank := by
  intro s b i hpush hpop
  rw [withBank_eq_mapNext]
  refine (unread_setRegs b).exec (fun arg hi => ?_) (fun r hi => absurd hi (hpop r))
  cases arg with
  | register r => exact absurd hi (hpush r)
  | _ => rfl

end Sys2Proof.Machine
end

section
/-! SUPPORT. What the commands of the port and the steps of a run in progress leave, and from it the invariant at the
port and the step of the block. -/

namespace Sys2Proof.Machine

/-! ### What the port's events leave -/

/-- What a completed command leaves of the state `s`, its outcome still in it. -/
inductive CommandLeaves (s : State) : State → Prop
  | nothing : CommandLeaves s s
  | pushed (v : Value) (hroom : stackFull s.config.ostackDepth s.ostack.length = false) :
      CommandLeaves s (s.setOstack (v :: s.ostack))
  | popped {v : Value} {rest : List Value} (hst : s.ostack = v :: rest) : CommandLeaves s (s.setOstack rest)
  | stepped {t : State} (hstep : step s = .next t) : CommandLeaves s t
  | reset : CommandLeaves s (hostReset s)

/-- A command or a step of a run leaves a block ready and settled, or a run in progress, or no state. -/
inductive PortLeft (s : State) : Port → Prop
  | ready {t : State} (ht : CommandLeaves s t) : PortLeft s (.ready t.settled)
  | running {t : State} (ht : CommandLeaves s t) : PortLeft s (.running t)
  | dead (kind : Fault) : PortLeft s (.dead kind)
  | unmodelled (reason : Refusal) : PortLeft s (.unmodelled reason)

theorem portLeft_perform (c : Command) (s : State) : PortLeft s (perform c s).1 := by
  cases c with
  | push v =>
    rcases hostPush_cases v s with ⟨hroom, e⟩ | ⟨-, e⟩ <;> rw [perform, e]
    · exact .ready (.pushed v hroom)
    · exact .dead _
  | pop =>
    rcases hostPop_cases s with ⟨-, e⟩ | ⟨v, rest, hst, e⟩ <;> rw [perform, e]
    · exact .ready .nothing
    · exact .ready (.popped hst)
  | step =>
    rw [perform]
    rcases performStep_cases s with ⟨t, hstep, e⟩ | ⟨kind, -, e⟩ | ⟨reason, -, e⟩ <;> rw [e]
    · exact .ready (.stepped hstep)
    · exact .dead kind
    · exact .unmodelled reason
  | run => exact .running .nothing
  | reset => exact .ready (t := hostReset s) .reset

theorem portLeft_runOnce (s : State) : PortLeft s (runOnce s).1 := by
  rcases runOnce_cases s with ⟨t, hstep, -, e⟩ | ⟨t, hstep, -, e⟩ | ⟨t, _, hstep, -, e⟩ | ⟨kind, -, e⟩ | ⟨reason, -, e⟩ <;>
    rw [e]
  · exact .running (.stepped hstep)
  · exact .ready (.stepped hstep)
  · exact .ready (.stepped hstep)
  · exact .dead kind
  · exact .unmodelled reason

theorem PortLeft.ready_report {s t : State} (h : PortLeft s (.ready t)) : t.report = .notStepped := by
  cases h; rfl

/-- Every accepted event starts from a state that the port holds. -/
theorem portStep_left {e : PortEvent} {p q : Port} {a : Option Reply} (h : portStep e p = some (q, a)) :
    ∃ s, p.held = some s ∧ PortLeft s q := by
  rcases portStep_eq_some.1 h with ⟨c, s, -, rfl, hx⟩ | ⟨s, -, rfl, hx⟩
  · have hleft := portLeft_perform c s
    rw [hx] at hleft
    exact ⟨s, rfl, hleft⟩
  · have hleft := portLeft_runOnce s
    rw [hx] at hleft
    exact ⟨s, rfl, hleft⟩

/-! ### The invariant at the port -/

theorem Inv.settled {s : State} (hs : Inv s) : Inv s.settled :=
  ⟨hs.programFits, hs.callStack, hs.ostackFits, hs.cstackFits⟩

theorem Inv.setOstack {s : State} {st : List Value} (hs : Inv s) (hst : TopMoved s.config.ostackDepth s.ostack st) :
    Inv (s.setOstack st) :=
  ⟨hs.programFits, hs.callStack, hs.ostackFits.of_topMoved hst, hs.cstackFits⟩

theorem Inv.of_commandLeaves {s t : State} (hs : Inv s) (h : CommandLeaves s t) : Inv t := by
  cases h with
  | nothing => exact hs
  | pushed v hroom => exact hs.setOstack (.push v hroom)
  | popped hst => exact hs.setOstack (.pop_one hst)
  | stepped hstep => exact everyStepKeepsTheInvariant s t hs hstep
  | reset => exact .construct _ hs.programFits

theorem Inv.of_portLeft {s t : State} {q : Port} (hs : Inv s) (h : PortLeft s q) (ht : q.held = some t) : Inv t := by
  cases h with
  | ready hleaves => cases ht; exact (hs.of_commandLeaves hleaves).settled
  | running hleaves => cases ht; exact hs.of_commandLeaves hleaves
  | dead kind => cases ht
  | unmodelled reason => cases ht

/-- A sequence of accepted events keeps the invariant of the state that the port holds, if it holds one. -/
theorem portRun_keeps_inv {es : List PortEvent} {p q : Port} (hp : ∀ s, p.held = some s → Inv s)
    (hrun : portRun es p = some q) : ∀ t, q.held = some t → Inv t := by
  induction es generalizing p with
  | nil => cases hrun; exact hp
  | cons e es ih =>
    obtain ⟨r, a, hstep, hrest⟩ := portRun_cons_eq_some.1 hrun
    obtain ⟨s, hs, hleft⟩ := portStep_left hstep
    exact ih (fun u hu => (hp s hs).of_portLeft hleft hu) hrest

theorem IsReturnSite.exists_returnAddress {p : List Instr} {v : Value} (h : IsReturnSite p v) :
    ∃ i, v = .returnAddress i := by
  obtain ⟨-, i, -, hv, -, -⟩ := h
  exact ⟨i, hv⟩

/-- One past an index of the Program lies between 1 and `PROG_LEN` (spec R38). -/
theorem IsReturnSite.bounds {p : List Instr} {i : Index} (h : IsReturnSite p (.returnAddress i)) :
    1 ≤ i.toNat ∧ i.toNat ≤ p.length := by
  obtain ⟨k, j, arg, hv, hj, hcall⟩ := h
  cases hv
  have hk : k < p.length := (List.getElem?_eq_some_iff.1 hcall).1
  omega

/-- Settles O53, by induction on the events; the bounds are those of a return site. -/
theorem everyCommandKeepsTheInvariant : Obligations.EveryCommandKeepsTheInvariant :=
  ⟨fun _ _ _ t hp hrun => portRun_keeps_inv hp hrun t, fun _ hs =>
    ⟨fun v hv => (hs.callStack v hv).exists_returnAddress, fun _ hi => (hs.callStack _ hi).bounds⟩⟩

/-! ### The step of the block -/

/-- A state that keeps the Program and the parameters and bears a report is rebuilt from its outcome and its block. -/
theorem result_outcomeOf_next {s t : State} (hp : t.program = s.program) (hc : t.config = s.config)
    (hr : t.report ≠ .notStepped) : (outcomeOf (.next t)).result s = .next t := by
  obtain ⟨b, p, cfg, r⟩ := t
  subst hp hc
  cases r with
  | notStepped => exact absurd rfl hr
  | continues | breaks | errs kind => rfl

theorem step_eq_result_blockStep (s : State) : step s = (s.toBlock.step s.config s.program).result s := by
  have hblock : s.toBlock.step s.config s.program = outcomeOf (step s) :=
    congrArg outcomeOf (stepNeverReadsTheReport s .notStepped)
  rw [hblock]
  cases hstep : step s with
  | next t =>
    have heffect := step_effect hstep
    exact (result_outcomeOf_next heffect.program_eq heffect.config_eq (step_report_ne_notStepped hstep)).symm
  | fault kind => rfl
  | refused reason => rfl

/-- Settles O60. -/
theorem stepIsTheBlocksStep : Obligations.StepIsTheBlocksStep := by
  refine ⟨step_eq_result_blockStep, fun c s t h => ?_, fun s t h => ?_⟩
  · exact (h ▸ portLeft_perform c s).ready_report
  · exact (h ▸ portLeft_runOnce s).ready_report

end Sys2Proof.Machine
end

section
/-! SUPPORT. The bound Program is only read: no instruction depends on it, and neither a step nor an event of the port
changes it (spec R42, R69). -/

namespace Sys2Proof.Machine

/-- The same state over another Program. -/
def State.setProgram (s : State) (p : List Instr) : State := { s with program := p }

@[simp] theorem State.setProgram_program (s : State) (p : List Instr) : (s.setProgram p).program = p := rfl

@[simp] theorem State.setProgram_self (s : State) : s.setProgram s.program = s := rfl

/-! ### The instructions -/

theorem unread_setProgram (p : List Instr) : Unread (·.setProgram p) (·.setProgram p) := by
  constructor <;> intros <;> rfl

/-- An instruction acts alike over every Program and leaves the one it found. -/
theorem exec_setProgram (i : Instr) (s : State) (p : List Instr) :
    exec i (s.setProgram p) = mapNext (·.setProgram p) (exec i s) :=
  (unread_setProgram p).exec (fun arg _ => by cases arg <;> rfl) (fun _ _ _ _ => rfl)

/-- Executing over the Program that is bound already leaves a state with that Program. -/
theorem exec_program_eq {i : Instr} {s t : State} (h : exec i s = .next t) : t.program = s.program := by
  have hself : exec i s = mapNext (·.setProgram s.program) (exec i s) := exec_setProgram i s s.program
  rw [h, mapNext_next] at hself
  have ht : t = t.setProgram s.program := Host.Outcome.next.inj hself
  rw [ht, State.setProgram_program]

/-! ### The port -/

theorem CommandLeaves.program_eq {s t : State} (h : CommandLeaves s t) : t.program = s.program := by
  cases h with
  | nothing | pushed | popped | reset => rfl
  | stepped hstep => exact (step_effect hstep).program_eq

theorem PortLeft.program_eq {s t : State} {q : Port} (h : PortLeft s q) (ht : q.held = some t) :
    t.program = s.program := by
  cases h with
  | ready hleaves => cases ht; exact hleaves.program_eq
  | running hleaves => cases ht; exact hleaves.program_eq
  | dead kind => cases ht
  | unmodelled reason => cases ht

/-- What every event keeps of the state that the port holds, a sequence of accepted events keeps. -/
theorem portRun_keeps {P : State → Prop} (hP : ∀ {s t q}, P s → PortLeft s q → q.held = some t → P t)
    {es : List PortEvent} {p q : Port} (hp : ∀ s, p.held = some s → P s) (hrun : portRun es p = some q) :
    ∀ t, q.held = some t → P t := by
  induction es generalizing p with
  | nil => cases hrun; exact hp
  | cons e es ih =>
    obtain ⟨r, a, hstep, hrest⟩ := portRun_cons_eq_some.1 hrun
    obtain ⟨s, hs, hleft⟩ := portStep_left hstep
    exact ih (fun u hu => hP (hp s hs) hleft hu) hrest

theorem portRun_program_eq {es : List PortEvent} {s t : State} {q : Port} (hrun : portRun es (.ready s) = some q)
    (ht : q.held = some t) : t.program = s.program :=
  portRun_keeps (P := fun u => u.program = s.program) (fun hu hleft hv => (hleft.program_eq hv).trans hu)
    (fun _ hu => by cases hu; rfl) hrun t ht

/-- Settles O3: instructions, steps, commands and sequences of events each leave the Program they found. -/
theorem nothingWritesTheProgram : Obligations.NothingWritesTheProgram := fun s =>
  ⟨fun _ _ => exec_program_eq, fun _ hstep => (step_effect hstep).program_eq,
    fun c _ => (portLeft_perform c s).program_eq,
    fun _ _ _ k hrun ht => congrArg (·[k]?) (portRun_program_eq hrun ht)⟩

end Sys2Proof.Machine
end

section
/-! SUPPORT. An image that loads puts at each index of the Program what the record there decodes to (spec R94). -/

namespace Sys2Proof

theorem length_of_decodeRecord_eq_ok {bs : List Byte} {i : Instr} (h : decodeRecord bs = .ok i) :
    bs.length = recordLength := by
  unfold decodeRecord at h
  split at h
  · rfl
  · cases h

/-- A record loads when it decodes, and is no `Jump` where `Jump` records are refused (spec R5, conflict C1). -/
theorem decodeLoadedRecord_eq_ok {cfg : Config} {bs : List Byte} {i : Instr} :
    decodeLoadedRecord cfg bs = .ok i ↔
      decodeRecord bs = .ok i ∧ ¬(i.opcode = .jump ∧ cfg.jumpTagDecodes = false) := by
  unfold decodeLoadedRecord
  cases decodeRecord bs with
  | error e => simp
  | ok j =>
    dsimp only
    split
    · exact ⟨nofun, fun ⟨hj, hn⟩ => by cases hj; exact absurd ‹_› hn⟩
    · exact ⟨fun hj => by cases hj; exact ⟨rfl, ‹_›⟩, And.left⟩

/-- Records load as a whole when the first does and the rest do. -/
theorem decodeChunks_succ_eq_ok {cfg : Config} {k n : Nat} {bs : List Byte} {p : List Instr} :
    decodeChunks cfg k (n + 1) bs = .ok p ↔
      ∃ i q, decodeLoadedRecord cfg (bs.take recordLength) = .ok i
        ∧ decodeChunks cfg (k + 1) n (bs.drop recordLength) = .ok q ∧ p = i :: q := by
  rw [decodeChunks]
  cases decodeLoadedRecord cfg (bs.take recordLength) with
  | error e => simp
  | ok i =>
    cases decodeChunks cfg (k + 1) n (bs.drop recordLength) with
    | error e => simp
    | ok q => simp [eq_comm]

theorem decodeChunks_getElem? {cfg : Config} {k n j : Nat} {bs : List Byte} {p : List Instr}
    (h : decodeChunks cfg k n bs = .ok p) (hj : j < n) :
    ∃ i, p[j]? = some i ∧ decodeLoadedRecord cfg ((bs.drop (recordLength * j)).take recordLength) = .ok i := by
  induction n generalizing k j bs p with
  | zero => omega
  | succ n ih =>
    obtain ⟨i, q, hi, hq, rfl⟩ := decodeChunks_succ_eq_ok.1 h
    cases j with
    | zero => exact ⟨i, rfl, hi⟩
    | succ j =>
      obtain ⟨i', hget, hdec⟩ := ih hq (Nat.lt_of_succ_lt_succ hj)
      rw [List.drop_drop, Nat.add_comm, ← Nat.mul_succ] at hdec
      exact ⟨i', hget, hdec⟩

/-- In an image that loads, a record that decodes is the instruction at its index. Such a record is ten bytes long, so
it lies before the tail that is never examined. -/
theorem decodeImage_getElem?_of_decodeRecord {cfg : Config} {image : List Byte} {p : List Instr} {j : Nat} {i : Instr}
    (h : decodeImage cfg image = .ok p)
    (hi : decodeRecord ((image.drop (recordLength * j)).take recordLength) = .ok i) : p[j]? = some i := by
  have hlen : min 10 (image.length - 10 * j) = 10 := by
    simpa [recordLength] using length_of_decodeRecord_eq_ok hi
  have hj : j < image.length / recordLength := by
    rw [recordLength]
    omega
  obtain ⟨i', hget, hloaded⟩ := decodeChunks_getElem? h hj
  obtain ⟨hdec, -⟩ := decodeLoadedRecord_eq_ok.1 hloaded
  rw [hi] at hdec
  cases hdec
  exact hget

namespace Machine

theorem constructImage_eq_next {cfg : Config} {image : List Byte} {s : State} :
    constructImage cfg image = .next s ↔ ∃ p, decodeImage cfg image = .ok p ∧ s = State.construct cfg p := by
  unfold constructImage
  cases decodeImage cfg image with
  | error e => simp
  | ok p => simp [eq_comm]

/-- Settles O6: the record at `pc` is what the loaded Program holds there, and so what the step fetches. -/
theorem stepRunsTheDecodedRecord : Obligations.StepRunsTheDecodedRecord := by
  intro cfg image s₀ s i hload hprogram hi
  obtain ⟨p, hp, rfl⟩ := constructImage_eq_next.1 hload
  rw [State.construct_program] at hprogram
  have hfetch : fetch s = some i := by
    rw [fetch, hprogram]
    exact decodeImage_getElem?_of_decodeRecord hp hi
  exact step_of_fetch hfetch

end Machine

end Sys2Proof
end

section
/-! SUPPORT. The record format said once: a string decodes to an instruction exactly when it has ten bytes and agrees
with the instruction's encoding up to the operand's natural width (`decodeRecord_eq_ok`). -/

namespace Sys2Proof

/-! ### Bytes and numbers -/

/-- The low `k + m` bytes of a number are its low `k` bytes and then the low `m` bytes of what is left of it. -/
theorem wordBytes_add (k m w : Nat) : wordBytes (k + m) w = wordBytes k w ++ wordBytes m (w / 256 ^ k) := by
  induction k generalizing w with
  | zero => simp [wordBytes]
  | succ k ih => rw [Nat.succ_add, wordBytes, ih, wordBytes, Nat.div_div_eq_div_mul, ← Nat.pow_succ', List.cons_append]

theorem wordBytes_drop_of_lt {k w : Nat} (m : Nat) (hw : w < 256 ^ k) :
    (wordBytes (k + m) w).drop k = List.replicate m 0 := by
  rw [wordBytes_add, List.drop_left' (wordBytes_length k w), Nat.div_eq_of_lt hw, wordBytes_zero]

/-- Reading a number from `k` bytes and writing it to `k` bytes are inverse to each other. -/
theorem eq_wordBytes_iff {k : Nat} {bs : List Byte} (hk : bs.length = k) (n : BitVec (8 * k)) :
    bs = wordBytes k n.toNat ↔ BitVec.ofNat (8 * k) (leNat bs) = n := by
  have hpow : 2 ^ (8 * k) = 256 ^ k := Nat.pow_mul 2 8 k
  constructor
  · rintro rfl
    rw [leNat_wordBytes, ← hpow, Nat.mod_eq_of_lt n.isLt, BitVec.ofNat_toNat, BitVec.setWidth_eq]
  · rintro rfl
    have hlt : leNat bs < 2 ^ (8 * k) := by rw [hpow, ← hk]; exact leNat_lt bs
    rw [BitVec.toNat_ofNat, Nat.mod_eq_of_lt hlt, ← hk, wordBytes_leNat]

/-! ### The operand -/

/-- The natural width in bytes of an operand (spec R83). -/
def Operand.width (arg : Operand) : Nat := naturalWidth arg.tag.toNat

theorem Operand.width_le (arg : Operand) : arg.width ≤ 8 := by
  unfold Operand.width naturalWidth
  split <;> decide

/-- An operand's payload fits its natural width. -/
theorem Operand.payload_lt (arg : Operand) : arg.payload < 256 ^ arg.width := by
  cases arg with
  | register r => cases r <;> decide
  | none => decide
  | uint8 n | uint16 n | uint32 n | uint64 n | int8 n | int16 n | int32 n | int64 n | instruction n => exact n.isLt

theorem Opcode.tag_le (op : Opcode) : op.tag.toNat ≤ 11 := by
  cases op <;> decide

theorem Operand.tag_le (arg : Operand) : arg.tag.toNat ≤ 18 := by
  cases arg with
  | register r => cases r <;> decide
  | _ => exact of_decide_eq_true rfl

/-- The payload bytes are those of the operand, up to its natural width. -/
def Operand.Reads (arg : Operand) (payload : List Byte) : Prop :=
  payload.take arg.width = wordBytes arg.width arg.payload

/-- A number's variant decodes to the number `n` exactly when the payload bytes of its width are those of `n`. -/
theorem ok_number_eq_iff {payload : List Byte} (hlen : payload.length = 8) {k : Nat} (hk : k ≤ 8)
    {mk : BitVec (8 * k) → Operand} (hmk : ∀ a b, mk a = mk b → a = b) (n : BitVec (8 * k)) :
    (Except.ok (mk (BitVec.ofNat (8 * k) (leNat (payload.take k)))) : Except DecodeError Operand) = .ok (mk n) ↔
      payload.take k = wordBytes k n.toNat := by
  have htake : (payload.take k).length = k := by rw [List.length_take]; omega
  rw [eq_wordBytes_iff htake]
  exact ⟨fun h => hmk _ _ (Except.ok.inj h), fun h => congrArg (fun x => Except.ok (mk x)) h⟩

/-- The operand decoder, given an operand's own tag, yields that operand exactly when the payload reads as it. -/
theorem decodeOperandFields_tag {arg : Operand} {payload : List Byte} (hlen : payload.length = 8) :
    decodeOperandFields arg.tag payload = .ok arg ↔ arg.Reads payload := by
  cases arg with
  | register r => cases r <;> exact ⟨fun _ => rfl, fun _ => rfl⟩
  | none => exact ⟨fun _ => rfl, fun _ => rfl⟩
  | uint8 n => exact ok_number_eq_iff (k := 1) hlen (by decide) (fun _ _ => Operand.uint8.inj) n
  | uint16 n => exact ok_number_eq_iff (k := 2) hlen (by decide) (fun _ _ => Operand.uint16.inj) n
  | uint32 n => exact ok_number_eq_iff (k := 4) hlen (by decide) (fun _ _ => Operand.uint32.inj) n
  | uint64 n => exact ok_number_eq_iff (k := 8) hlen (by decide) (fun _ _ => Operand.uint64.inj) n
  | int8 n => exact ok_number_eq_iff (k := 1) hlen (by decide) (fun _ _ => Operand.int8.inj) n
  | int16 n => exact ok_number_eq_iff (k := 2) hlen (by decide) (fun _ _ => Operand.int16.inj) n
  | int32 n => exact ok_number_eq_iff (k := 4) hlen (by decide) (fun _ _ => Operand.int32.inj) n
  | int64 n => exact ok_number_eq_iff (k := 8) hlen (by decide) (fun _ _ => Operand.int64.inj) n
  | instruction i => exact ok_number_eq_iff (k := 8) hlen (by decide) (fun _ _ => Operand.instruction.inj) i

/-- An operand tag decodes exactly when it is at most 18 (spec R89), and then to an operand with that tag. -/
theorem decodeOperandFields_cases (tag : Byte) (payload : List Byte) :
    (tag.toNat ≤ 18 ∧ ∃ arg : Operand, arg.tag = tag ∧ decodeOperandFields tag payload = .ok arg) ∨
    (18 < tag.toNat ∧ decodeOperandFields tag payload = .error (.badOperandTag tag)) := by
  by_cases htag : tag.toNat ≤ 18
  · refine .inl ⟨htag, ?_⟩
    obtain ⟨n, hn, rfl⟩ : ∃ n, n ≤ 18 ∧ tag = BitVec.ofNat 8 n := ⟨tag.toNat, htag, by simp⟩
    interval_cases n <;> exact ⟨_, rfl, rfl⟩
  · refine .inr ⟨by omega, ?_⟩
    unfold decodeOperandFields
    split <;> first | omega | rfl

theorem decodeOperandFields_eq_ok {tag : Byte} {payload : List Byte} (hlen : payload.length = 8) {arg : Operand} :
    decodeOperandFields tag payload = .ok arg ↔ arg.tag = tag ∧ arg.Reads payload := by
  constructor
  · intro h
    rcases decodeOperandFields_cases tag payload with ⟨-, arg', rfl, e⟩ | ⟨-, e⟩ <;> rw [e] at h <;> cases h
    exact ⟨rfl, (decodeOperandFields_tag hlen).1 e⟩
  · rintro ⟨rfl, hreads⟩
    exact (decodeOperandFields_tag hlen).2 hreads

/-! ### The record -/

theorem decodeOpcode_eq_ok {b : Byte} {op : Opcode} : decodeOpcode b = .ok op ↔ op.tag = b := by
  constructor
  · intro h
    rcases decodeOpcode_cases b with ⟨-, op', htag, e⟩ | ⟨-, e⟩ <;> rw [h] at e <;> cases e
    exact htag
  · rintro rfl
    exact decodeOpcode_tag op

/-- An instruction is the pair of its opcode and its operand (spec R42). -/
theorem instr_eq_iff {op : Opcode} {arg : Operand} {i : Instr} :
    op.instr arg = i ↔ op = i.opcode ∧ arg = i.operand := by
  constructor
  · rintro rfl
    cases op <;> exact ⟨rfl, rfl⟩
  · rintro ⟨rfl, rfl⟩
    cases i <;> rfl

theorem decodeRecord_of_length_ne {bs : List Byte} (h : bs.length ≠ recordLength) :
    decodeRecord bs = .error (.badLength bs.length) := by
  unfold decodeRecord
  split
  · exact absurd rfl h
  · rfl

/-- A string of ten bytes is an opcode byte, an operand tag and eight payload bytes. -/
theorem exists_fields {bs : List Byte} (h : bs.length = recordLength) :
    ∃ b tag payload, bs = b :: tag :: payload ∧ payload.length = 8 := by
  match bs, h with
  | b :: tag :: payload, h => exact ⟨b, tag, payload, rfl, by simpa [recordLength] using h⟩

/-- The record decoder reads the opcode byte first and then the operand (spec R90). -/
theorem decodeRecord_fields (b tag : Byte) {payload : List Byte} (hlen : payload.length = 8) :
    decodeRecord (b :: tag :: payload) =
      (decodeOpcode b).bind fun op => (decodeOperandFields tag payload).map op.instr := by
  match payload, hlen with
  | [b0, b1, b2, b3, b4, b5, b6, b7], _ =>
    simp only [decodeRecord, decodeOperand]
    cases decodeOpcode b with
    | error e => rfl
    | ok op => cases decodeOperandFields tag [b0, b1, b2, b3, b4, b5, b6, b7] <;> rfl

/-- The opcode byte is checked before the operand (spec R88). -/
theorem decodeRecord_of_badOpcode {bs : List Byte} (hlen : bs.length = recordLength)
    (hop : 11 < (recordOpcodeByte bs).toNat) : decodeRecord bs = .error (.badOpcode (recordOpcodeByte bs)) := by
  obtain ⟨b, tag, payload, rfl, hpayload⟩ := exists_fields hlen
  obtain ⟨-, e⟩ := (decodeOpcode_cases b).resolve_left fun h => absurd h.1 (Nat.not_le.2 hop)
  rw [decodeRecord_fields b tag hpayload, e]
  rfl

theorem decodeRecord_of_badOperandTag {bs : List Byte} (hlen : bs.length = recordLength)
    (hop : (recordOpcodeByte bs).toNat ≤ 11) (htag : 18 < (recordOperandByte bs).toNat) :
    decodeRecord bs = .error (.badOperandTag (recordOperandByte bs)) := by
  obtain ⟨b, tag, payload, rfl, hpayload⟩ := exists_fields hlen
  obtain ⟨-, op, -, e⟩ := (decodeOpcode_cases b).resolve_right fun h => absurd h.1 (Nat.not_lt.2 hop)
  obtain ⟨-, e'⟩ := (decodeOperandFields_cases tag payload).resolve_left fun h => absurd h.1 (Nat.not_le.2 htag)
  rw [decodeRecord_fields b tag hpayload, e, e']
  rfl

theorem exists_decodeRecord_of_legal {bs : List Byte} (hlen : bs.length = recordLength)
    (hop : (recordOpcodeByte bs).toNat ≤ 11) (htag : (recordOperandByte bs).toNat ≤ 18) :
    ∃ i, decodeRecord bs = .ok i := by
  obtain ⟨b, tag, payload, rfl, hpayload⟩ := exists_fields hlen
  obtain ⟨-, op, -, e⟩ := (decodeOpcode_cases b).resolve_right fun h => absurd h.1 (Nat.not_lt.2 hop)
  obtain ⟨-, arg, -, e'⟩ := (decodeOperandFields_cases tag payload).resolve_right fun h => absurd h.1 (Nat.not_lt.2 htag)
  rw [decodeRecord_fields b tag hpayload, e, e']
  exact ⟨op.instr arg, rfl⟩

theorem decodeRecord_fields_eq_ok {b tag : Byte} {payload : List Byte} (hlen : payload.length = 8) {i : Instr} :
    decodeRecord (b :: tag :: payload) = .ok i ↔
      i.opcode.tag = b ∧ i.operand.tag = tag ∧ i.operand.Reads payload := by
  rw [decodeRecord_fields b tag hlen, ← decodeOpcode_eq_ok, ← decodeOperandFields_eq_ok hlen]
  cases decodeOpcode b with
  | error e => simp [Except.bind]
  | ok op =>
    cases decodeOperandFields tag payload with
    | error e => simp [Except.bind, Except.map]
    | ok arg => simp [Except.bind, Except.map, instr_eq_iff]

theorem encodeRecord_eq (i : Instr) :
    encodeRecord i = i.opcode.tag :: i.operand.tag :: wordBytes 8 i.operand.payload := rfl

/-- The record format: ten bytes that agree with the instruction's encoding up to the operand's natural width. The
padding after it is free (spec R85, decision D8). -/
theorem decodeRecord_eq_ok {bs : List Byte} {i : Instr} :
    decodeRecord bs = .ok i ↔ bs.length = recordLength ∧
      bs.take (2 + i.operand.width) = (encodeRecord i).take (2 + i.operand.width) := by
  by_cases hlen : bs.length = recordLength
  · obtain ⟨b, tag, payload, rfl, hpayload⟩ := exists_fields hlen
    rw [decodeRecord_fields_eq_ok hpayload, encodeRecord_eq, Nat.add_comm, List.take_succ_cons, List.take_succ_cons,
      List.take_succ_cons, List.take_succ_cons, wordBytes_take 8 i.operand.width_le]
    simp [hlen, Operand.Reads, eq_comm]
  · rw [decodeRecord_of_length_ne hlen]
    simp [hlen]

/-- Settles O11: an instruction's encoding has ten bytes and agrees with itself. -/
theorem decodeUndoesEncode : Obligations.DecodeUndoesEncode :=
  fun i => decodeRecord_eq_ok.2 ⟨encodeRecord_length i, rfl⟩

/-- Settles O10: ten closed strings, each by running the decoder on it. -/
theorem writtenOutRecordsDecode : Obligations.WrittenOutRecordsDecode :=
  ⟨rfl, rfl, rfl, rfl, rfl, rfl, rfl, rfl, rfl, rfl⟩

/-- Settles O13: `decodeRecord_eq_ok` does not speak of the bytes after the natural width. -/
theorem paddingIsNotExamined : Obligations.PaddingIsNotExamined := by
  intro bs bs' i hdec hlen hagree
  obtain ⟨-, htake⟩ := decodeRecord_eq_ok.1 hdec
  exact decodeRecord_eq_ok.2 ⟨hlen, hagree.trans htake⟩

/-- Settles O14: the length, the opcode byte and the operand tag are checked in this order, and the tags of instructions
are the legal ones. -/
theorem recordDecodesExactlyWhenLegal : Obligations.RecordDecodesExactlyWhenLegal := by
  refine ⟨fun bs => ⟨?_, ?_⟩, fun bs => decodeRecord_of_length_ne, fun bs => decodeRecord_of_badOpcode,
    fun bs => decodeRecord_of_badOperandTag⟩
  · rintro ⟨i, hi⟩
    obtain ⟨b, tag, payload, rfl, hlen⟩ := exists_fields (length_of_decodeRecord_eq_ok hi)
    obtain ⟨rfl, rfl, -⟩ := (decodeRecord_fields_eq_ok hlen).1 hi
    exact ⟨congrArg (· + 2) hlen, i.opcode.tag_le, i.operand.tag_le⟩
  · rintro ⟨hlen, hop, htag⟩
    exact exists_decodeRecord_of_legal hlen hop htag

/-! ### The padding -/

theorem recordOperandByte_of_decodeRecord {bs : List Byte} {i : Instr} (h : decodeRecord bs = .ok i) :
    recordOperandByte bs = i.operand.tag := by
  obtain ⟨b, tag, payload, rfl, hpayload⟩ := exists_fields (length_of_decodeRecord_eq_ok h)
  obtain ⟨-, htag, -⟩ := (decodeRecord_fields_eq_ok hpayload).1 h
  exact htag.symm

/-- The encoder leaves zeros after the operand's natural width (spec R84). -/
theorem encodeRecord_drop (i : Instr) :
    (encodeRecord i).drop (2 + i.operand.width) = List.replicate (8 - i.operand.width) 0 := by
  have hpad := wordBytes_drop_of_lt (8 - i.operand.width) i.operand.payload_lt
  rw [Nat.add_sub_of_le i.operand.width_le] at hpad
  rw [encodeRecord_eq, Nat.add_comm]
  exact hpad

theorem recordPaddingZero_iff {bs : List Byte} {i : Instr} (h : decodeRecord bs = .ok i) :
    recordPaddingZero bs = true ↔ bs.drop (2 + i.operand.width) = List.replicate (8 - i.operand.width) 0 := by
  have hlen : (bs.drop (2 + i.operand.width)).length = 8 - i.operand.width := by
    rw [List.length_drop, length_of_decodeRecord_eq_ok h, recordLength]
    omega
  rw [recordPaddingZero, recordOperandByte_of_decodeRecord h, List.eq_replicate_iff, List.all_eq_true]
  simp only [beq_iff_eq]
  exact ⟨fun hz => ⟨hlen, hz⟩, And.right⟩

/-- Settles O12: a record agrees with the encoding of its instruction before the padding, so they are equal exactly
when its padding is the encoder's, which is zero. -/
theorem encodeUndoesDecodeOnZeroPadding : Obligations.EncodeUndoesDecodeOnZeroPadding := by
  intro bs i hdec
  obtain ⟨-, htake⟩ := decodeRecord_eq_ok.1 hdec
  rw [recordPaddingZero_iff hdec, ← encodeRecord_drop i]
  constructor
  · rintro rfl
    rfl
  · intro hdrop
    rw [← List.take_append_drop (2 + i.operand.width) (encodeRecord i), ← htake, ← hdrop, List.take_append_drop]

/-- Settles O15: the padding of what the encoder writes is zero because encode undoes decode on it. -/
theorem encodedRecordHasTagOperandAndZeroPadding : Obligations.EncodedRecordHasTagOperandAndZeroPadding := by
  intro i
  have hdec : decodeRecord (encodeRecord i) = .ok i := decodeUndoesEncode i
  have hpad : recordPaddingZero (encodeRecord i) = true := (encodeUndoesDecodeOnZeroPadding _ i hdec).1 rfl
  exact ⟨rfl, encodeOperand_length i.operand, encodeRecord_length i, hpad, hdec⟩

end Sys2Proof
end

section
/-! SUPPORT. The image: its records one by one, the loading of a program's own image, and the first record that does
not load. -/

namespace Sys2Proof

/-! ### Loading record by record -/

theorem decodeChunks_length {cfg : Config} {k n : Nat} {bs : List Byte} {p : List Instr}
    (h : decodeChunks cfg k n bs = .ok p) : p.length = n := by
  induction n generalizing k bs p with
  | zero => cases h; rfl
  | succ n ih =>
    obtain ⟨i, q, -, hq, rfl⟩ := decodeChunks_succ_eq_ok.1 h
    rw [List.length_cons, ih hq]

/-- What follows the records is not read. -/
theorem decodeChunks_append (cfg : Config) {k n : Nat} {bs : List Byte} (tail : List Byte)
    (h : recordLength * n ≤ bs.length) : decodeChunks cfg k n (bs ++ tail) = decodeChunks cfg k n bs := by
  induction n generalizing k bs with
  | zero => rfl
  | succ n ih =>
    rw [Nat.mul_succ] at h
    rw [decodeChunks, decodeChunks, List.take_append_of_le_length (by omega), List.drop_append_of_le_length (by omega),
      ih (by rw [List.length_drop]; omega)]

/-- Settles O16: the tail is never read, and without a whole record there is nothing to decode. -/
theorem imageDecodeCutsRecordsAndDropsTail : Obligations.ImageDecodeCutsRecordsAndDropsTail := by
  refine fun cfg image => ⟨fun p hp => ?_, fun tail hfull htail => ?_, fun hshort => ?_⟩
  · have hlen : p.length = image.length / 10 := decodeChunks_length hp
    refine ⟨hlen, fun k i hk => ?_⟩
    have hlt : k < image.length / 10 := hlen ▸ (List.getElem?_eq_some_iff.1 hk).1
    obtain ⟨i', hk', hload⟩ := decodeChunks_getElem? hp hlt
    cases hk.symm.trans hk'
    exact (decodeLoadedRecord_eq_ok.1 hload).1
  · have hcount : (image ++ tail).length / recordLength = image.length / recordLength := by
      rw [List.length_append, recordLength]
      omega
    rw [decodeImage, hcount]
    exact decodeChunks_append cfg tail (Nat.mul_div_le _ _)
  · rw [decodeImage, recordLength, Nat.div_eq_of_lt hshort]
    rfl

/-! ### The image of a program -/

theorem encodeImage_length (p : List Instr) : (encodeImage p).length = recordLength * p.length := by
  induction p with
  | nil => rfl
  | cons i p ih =>
    rw [encodeImage, List.flatMap_cons, List.length_append, encodeRecord_length, List.length_cons, Nat.mul_succ,
      Nat.add_comm]
    exact congrArg (· + recordLength) ih

theorem decodeChunks_encodeImage {cfg : Config} (hcfg : cfg.jumpTagDecodes = true) (k : Nat) (p : List Instr) :
    decodeChunks cfg k p.length (encodeImage p) = .ok p := by
  induction p generalizing k with
  | nil => rfl
  | cons i p ih =>
    have himage : encodeImage (i :: p) = encodeRecord i ++ encodeImage p := List.flatMap_cons
    refine decodeChunks_succ_eq_ok.2 ⟨i, p, ?_, ?_, rfl⟩
    · rw [himage, List.take_left' (encodeRecord_length i)]
      exact decodeLoadedRecord_eq_ok.2 ⟨decodeUndoesEncode i, by simp [hcfg]⟩
    · rw [himage, List.drop_left' (encodeRecord_length i)]
      exact ih (k + 1)

theorem decodeImage_encodeImage {cfg : Config} (hcfg : cfg.jumpTagDecodes = true) (p : List Instr) :
    decodeImage cfg (encodeImage p) = .ok p := by
  rw [decodeImage, encodeImage_length, Nat.mul_div_cancel_left _ (by decide)]
  exact decodeChunks_encodeImage hcfg 0 p

/-- Settles O18, by induction on the program. -/
theorem imageOfProgramLoadsTheProgram : Obligations.ImageOfProgramLoadsTheProgram := fun _ p hcfg =>
  ⟨encodeImage_length p, Machine.constructImage_eq_next.2 ⟨p, decodeImage_encodeImage hcfg p, rfl⟩⟩

/-! ### The first record that does not load -/

/-- Record number `j` of an image loads. -/
def RecordLoads (cfg : Config) (image : List Byte) (j : Nat) : Prop :=
  ∃ i, decodeLoadedRecord cfg ((image.drop (recordLength * j)).take recordLength) = .ok i

/-- Record number `j` is the first of the `n` records of an image that does not load. -/
def FirstBadRecord (cfg : Config) (n : Nat) (image : List Byte) (j : Nat) : Prop :=
  j < n ∧ ¬RecordLoads cfg image j ∧ ∀ m, m < j → RecordLoads cfg image m

theorem recordLoads_iff {cfg : Config} {image : List Byte} {j : Nat} :
    RecordLoads cfg image j ↔ ∃ i, decodeRecord ((image.drop (10 * j)).take 10) = .ok i
      ∧ (i.opcode = .jump → cfg.jumpTagDecodes = true) := by
  refine exists_congr fun i => decodeLoadedRecord_eq_ok.trans (and_congr_right' ?_)
  rw [not_and, Bool.not_eq_false]

/-- After the first record come the others, one place further on. -/
theorem recordLoads_drop {cfg : Config} {image : List Byte} {j : Nat} :
    RecordLoads cfg (image.drop recordLength) j ↔ RecordLoads cfg image (j + 1) := by
  rw [RecordLoads, List.drop_drop, Nat.add_comm, ← Nat.mul_succ]
  rfl

theorem FirstBadRecord.unique {cfg : Config} {n : Nat} {image : List Byte} {j k : Nat}
    (hj : FirstBadRecord cfg n image j) (hk : FirstBadRecord cfg n image k) : j = k := by
  obtain ⟨-, hjbad, hjgood⟩ := hj
  obtain ⟨-, hkbad, hkgood⟩ := hk
  rcases Nat.lt_trichotomy j k with hlt | heq | hgt
  · exact absurd (hkgood j hlt) hjbad
  · exact heq
  · exact absurd (hjgood k hgt) hkbad

/-- Records either load, each of them, or are refused with the number of the first that does not. -/
theorem decodeChunks_cases (cfg : Config) (k n : Nat) (bs : List Byte) :
    ((∃ p, decodeChunks cfg k n bs = .ok p) ∧ ∀ j, j < n → RecordLoads cfg bs j) ∨
    (∃ j e, decodeChunks cfg k n bs = .error (k + j, e) ∧ FirstBadRecord cfg n bs j) := by
  induction n generalizing k bs with
  | zero => exact .inl ⟨⟨[], rfl⟩, fun j hj => absurd hj (Nat.not_lt_zero j)⟩
  | succ n ih =>
    have hfirst : RecordLoads cfg bs 0 ↔ ∃ i, decodeLoadedRecord cfg (bs.take recordLength) = .ok i := Iff.rfl
    rw [decodeChunks]
    cases hload : decodeLoadedRecord cfg (bs.take recordLength) with
    | error e =>
      have hbad : ¬RecordLoads cfg bs 0 := by rw [hfirst, hload]; nofun
      exact .inr ⟨0, e, rfl, Nat.succ_pos n, hbad, fun m hm => absurd hm (Nat.not_lt_zero m)⟩
    | ok i =>
      have hgood : RecordLoads cfg bs 0 := hfirst.2 ⟨i, hload⟩
      have hcons : ∀ {j}, (∀ m, m < j → RecordLoads cfg (bs.drop recordLength) m) →
          ∀ m, m < j + 1 → RecordLoads cfg bs m := by
        intro j hrest m hm
        cases m with
        | zero => exact hgood
        | succ m => exact recordLoads_drop.1 (hrest m (Nat.lt_of_succ_lt_succ hm))
      rcases ih (k + 1) (bs.drop recordLength) with ⟨⟨p, e⟩, hrest⟩ | ⟨j, err, e, hlt, hbad, hrest⟩ <;> rw [e]
      · exact .inl ⟨⟨i :: p, rfl⟩, hcons hrest⟩
      · exact .inr ⟨j + 1, err, by rw [Nat.add_assoc, Nat.add_comm 1], Nat.succ_lt_succ hlt, mt recordLoads_drop.2 hbad,
          hcons hrest⟩

/-- An image makes a block over its records, or is refused with the number of the first that does not load. -/
theorem constructImage_cases (cfg : Config) (image : List Byte) :
    ((∃ p, decodeImage cfg image = .ok p ∧ Machine.constructImage cfg image = .next (Machine.State.construct cfg p))
      ∧ ∀ j, j < image.length / 10 → RecordLoads cfg image j) ∨
    (∃ j, Machine.constructImage cfg image = .refused (.decodeRefused j)
      ∧ FirstBadRecord cfg (image.length / 10) image j) := by
  rcases decodeChunks_cases cfg 0 (image.length / recordLength) image with ⟨⟨p, e⟩, hgood⟩ | ⟨j, err, e, hfirst⟩
  · exact .inl ⟨⟨p, e, Machine.constructImage_eq_next.2 ⟨p, e, rfl⟩⟩, hgood⟩
  · rw [Nat.zero_add] at e
    exact .inr ⟨j, by rw [Machine.constructImage, decodeImage, e], hfirst⟩

/-- Settles O17: the image either loads or is refused at its first bad record, and there is only one first. -/
theorem imageRefusedAtItsFirstBadRecord : Obligations.ImageRefusedAtItsFirstBadRecord := by
  intro cfg image
  simp only [← recordLoads_iff]
  rcases constructImage_cases cfg image with ⟨⟨p, hp, hnext⟩, hgood⟩ | ⟨j, hrefused, hfirst⟩
  · refine ⟨fun n => ⟨fun h => ?_, fun ⟨hn, hbad, _⟩ => absurd (hgood n hn) hbad⟩, fun _ => ⟨p, hp, hnext⟩⟩
    rw [hnext] at h
    cases h
  · refine ⟨fun n => ⟨fun h => ?_, fun hn => ?_⟩, fun hgood => absurd (hgood j hfirst.1) hfirst.2.1⟩
    · rw [hrefused] at h
      cases h
      exact hfirst
    · rw [hrefused, hfirst.unique hn]

end Sys2Proof
end

section
/-! SUPPORT. What the encodable instructions do: each has a meaning, the unused operand plays no part, and an operand
that suits its opcode is never to blame for an error. -/

namespace Sys2Proof.Machine

/-- Settles O8: an instruction answers a next state or a fault, and a step without one raises an error. -/
theorem noStepIsRefused : Obligations.NoStepIsRefused := by
  intro s i q
  have hexec : ∀ i, exec i s ≠ .refused q := by
    intro i h
    rcases exec_next_or_fault i s with ⟨t, e⟩ | ⟨f, -, e⟩ <;> rw [e] at h <;> cases h
  refine ⟨hexec i, ?_⟩
  rcases step_cases s with ⟨-, e⟩ | ⟨j, -, e⟩ <;> rw [e]
  · nofun
  · exact hexec j

/-- Settles O38: the six meanings do not mention their operand. -/
theorem unusedOperandPlaysNoPart : Obligations.UnusedOperandPlaysNoPart :=
  fun _ _ _ => ⟨rfl, rfl, rfl, rfl, rfl, rfl⟩

/-! ### Errors about the operand -/

/-- Whether a step reports one of the three errors that blame the operand (spec R252, R254, R255). -/
def StepReport.blamesOperand : StepReport → Bool
  | .errs .instructionExpected => true
  | .errs .valueExpected => true
  | .errs .registerExpected => true
  | _ => false

/-- Every operand but an instruction index has a value under the chosen `PUSH_NONE_OPERAND` (spec R179). -/
theorem exists_argValue {arg : Operand} {s : State} (hnone : s.config.pushNone = .pushes)
    (harg : arg.isInstruction = false) : ∃ v, argValue arg s = .ok v := by
  cases arg with
  | instruction i => cases harg
  | none => exact ⟨.none, by rw [argValue, hnone]⟩
  | _ => exact ⟨_, rfl⟩

theorem ArithNext.not_blamesOperand {s t : State} (h : ArithNext s t) : t.report.blamesOperand = false := by
  rcases h with ⟨-, rfl⟩ | ⟨l, r, rest, v, -, -, rfl⟩ <;> rfl

theorem JumpNext.not_blamesOperand {taken : Bool} {arg : Operand} {rest : List Value} {s t : State}
    (harg : arg.isInstruction = true) (h : JumpNext taken arg rest s t) : t.report.blamesOperand = false := by
  rcases h with ⟨-, k, -, rfl⟩ | ⟨-, hnot, -⟩ | ⟨-, rfl⟩
  · rfl
  · rw [harg] at hnot
    cases hnot
  · rfl

/-- An operand that suits its opcode (spec R97) is not blamed; for `Return`, which pops what it needs, the invariant
says that it pops a return address. -/
theorem NextOf.not_blamesOperand {i : Instr} {s t : State} (hs : Inv s) (hnone : s.config.pushNone = .pushes)
    (hsuits : i.operandSuits = true) (h : NextOf i s t) : t.report.blamesOperand = false := by
  cases i with
  | push arg =>
    rcases h with ⟨v, -, -, rfl⟩ | ⟨herr, -⟩
    · rfl
    · have harg : arg.isInstruction = false := by simpa [Instr.operandSuits] using hsuits
      obtain ⟨v, hv⟩ := exists_argValue hnone harg
      rw [hv] at herr
      cases herr
  | pop arg =>
    rcases h with ⟨-, rfl⟩ | ⟨v, rest, r, -, -, rfl⟩ | ⟨v, rest, -, hnot, -⟩
    · rfl
    · rfl
    · cases hnot.symm.trans hsuits
  | add arg | subtract arg | multiply arg | divide arg => exact ArithNext.not_blamesOperand h
  | jumpIfEqual arg =>
    rcases h with ⟨-, rfl⟩ | ⟨l, r, rest, -, hjump⟩
    · rfl
    · exact hjump.not_blamesOperand hsuits
  | jumpIfZero arg =>
    rcases h with ⟨-, rfl⟩ | ⟨v, rest, -, hjump⟩
    · rfl
    · exact hjump.not_blamesOperand hsuits
  | jump arg =>
    rcases h with ⟨k, -, rfl⟩ | ⟨hnot, -⟩
    · rfl
    · cases hnot.symm.trans hsuits
  | call arg =>
    obtain ⟨-, ⟨k, -, rfl⟩ | ⟨hnot, -⟩⟩ := h
    · rfl
    · cases hnot.symm.trans hsuits
  | ret arg =>
    rcases h with ⟨-, rfl⟩ | ⟨a, rest, -, rfl⟩ | ⟨v, rest, hst, hnot, -⟩
    · rfl
    · rfl
    · obtain ⟨a, ha⟩ := (hs.callStack v (by rw [hst]; exact List.mem_cons_self)).exists_returnAddress
      exact absurd ha (hnot a)
  | exit arg =>
    subst h
    rfl

/-- Settles O45. -/
theorem suitedOperandNeverFailsOnItsKind : Obligations.SuitedOperandNeverFailsOnItsKind := by
  intro s t i hs hnone hi hsuits hstep
  have hblame : t.report.blamesOperand = false := by
    rcases step_next hstep with ⟨hpast, -⟩ | ⟨j, hj, hnext⟩
    · rw [hpast] at hi
      cases hi
    · cases hj.symm.trans hi
      exact hnext.not_blamesOperand hs hnone hsuits
  refine ⟨?_, ?_, ?_⟩ <;> intro hr <;> rw [hr] at hblame <;> cases hblame

end Sys2Proof.Machine
end

section
/-! SUPPORT. The value model: conversion as the reading of a 64-bit pattern, the arithmetic of one variant as that of
its width, what an arithmetic instruction leaves when it completes, and the laws of equality. -/

namespace Sys2Proof.Machine

/-! ### Conversion by patterns -/

/-- The low bits of a 64-bit pattern of an integer are its pattern of the smaller width. -/
theorem setWidth_ofInt_of_le {k N : Nat} (h : k ≤ N) (n : Int) : (BitVec.ofInt N n).setWidth k = BitVec.ofInt k n := by
  apply BitVec.eq_of_toNat_eq
  rw [BitVec.toNat_setWidth, ← Int.natCast_inj, Int.natCast_mod, ← umod_eq_toNat, ← umod_eq_toNat]
  push_cast
  exact Int.emod_emod_of_dvd n (pow_dvd_pow 2 h)

/-- Extending a value by its own signedness writes its number in 64 bits. -/
theorem extendTo64_eq_ofInt (v : Value) : extendTo64 v = BitVec.ofInt 64 (num v) := by
  cases v with
  | none | int8 n | int16 n | int32 n => rfl
  | int64 n => exact BitVec.ofInt_toInt.symm
  | uint8 n | uint16 n | uint32 n | uint64 n | returnAddress n =>
    simp [extendTo64, num]

/-- Truncating a number's 64-bit pattern carries the number. -/
theorem truncateTo_ofInt (T : Variant) (n : Int) : truncateTo T (BitVec.ofInt 64 n) = carry T n := by
  cases T with
  | none | uint64 | int64 | returnAddress => rfl
  | uint8 | uint16 | uint32 | int8 | int16 | int32 =>
    simp only [truncateTo, carry, BitVec.truncate_eq_setWidth]
    rw [setWidth_ofInt_of_le (by decide)]

/-- Converting a value gives the number that its pattern, extended and truncated, carries. -/
theorem conv_eq_num_truncateTo {T : Variant} (hT : T ≠ .none) (v : Value) :
    conv T v = num (truncateTo T (extendTo64 v)) := by
  rw [extendTo64_eq_ofInt, truncateTo_ofInt, num_carry hT, conv]

@[simp] theorem variantOf_truncateTo (T : Variant) (x : BitVec 64) : variantOf (truncateTo T x) = T := by
  cases T <;> rfl

/-- Settles O22: both readings carry the number `num v`, and a value is carried by its own number. -/
theorem conversionExtendsThenTruncates : Obligations.ConversionExtendsThenTruncates := by
  intro T v hT
  have hconv := conv_eq_num_truncateTo hT v
  refine ⟨?_, hconv, ?_⟩
  · have hcarry := carry_num (truncateTo T (extendTo64 v))
    rwa [variantOf_truncateTo, ← hconv] at hcarry
  · rw [extendTo64_eq_ofInt]
    exact umod_eq_toNat 64 (num v)

/-! ### Arithmetic on one variant -/

/-- The integer that a pattern stands for: two's complement when signed, else unsigned. -/
def patternNum {N : Nat} (signed : Bool) (a : BitVec N) : Int := if signed then a.toInt else a.toNat

@[simp] theorem ofInt_patternNum {N : Nat} (signed : Bool) (a : BitVec N) : BitVec.ofInt N (patternNum signed a) = a := by
  cases signed <;> simp [patternNum, BitVec.ofInt_toInt]

theorem patternNum_eq_zero_iff {N : Nat} (signed : Bool) (a : BitVec N) : patternNum signed a = 0 ↔ a = 0 := by
  constructor
  · intro h
    rw [← ofInt_patternNum signed a, h]
    exact BitVec.ofInt_ofNat N 0
  · rintro rfl
    cases signed <;> simp [patternNum]

/-- The native quotient is the pattern of the exact one, least value by -1 included: the one quotient that does not
fit wraps in both. -/
theorem ofInt_tdiv_patternNum {N : Nat} (signed : Bool) (a b : BitVec N) :
    BitVec.ofInt N ((patternNum signed a).tdiv (patternNum signed b)) = if signed then a.sdiv b else a.udiv b := by
  cases signed
  · simp only [patternNum, Bool.false_eq_true, if_false]
    rw [← Int.ofNat_tdiv, BitVec.ofInt_natCast, BitVec.udiv_eq, BitVec.udiv_def]
  · apply BitVec.eq_of_toInt_eq
    simp [patternNum, BitVec.toInt_ofInt, BitVec.toInt_sdiv]

/-- `mk` makes the values of variant `T`, one per `N`-bit pattern, and each carries its pattern's number. -/
structure Patterned (N : Nat) (signed : Bool) (mk : BitVec N → Value) (T : Variant) : Prop where
  variantOf_mk : ∀ a, variantOf (mk a) = T
  num_mk : ∀ a, num (mk a) = patternNum signed a
  carry_eq : ∀ n, carry T n = mk (BitVec.ofInt N n)
  ne_none : T ≠ .none

/-- On two values of one variant nothing is coerced: the operation computes on the two patterns' numbers. -/
theorem Patterned.arith_eq {N : Nat} {signed : Bool} {mk : BitVec N → Value} {T : Variant}
    (h : Patterned N signed mk T) (op : ArithOp) (a b : BitVec N) :
    arith .wrap op (mk a) (mk b) =
      if op = .div ∧ b = 0 then .error .divideByZero
      else .ok (mk (BitVec.ofInt N (exactResult op (patternNum signed a) (patternNum signed b)))) := by
  have hne : mk a ≠ .none := by
    rw [ne_eq, ← variantOf_eq_none_iff, h.variantOf_mk]
    exact h.ne_none
  have hconv : conv T (mk b) = patternNum signed b := by
    rw [← h.variantOf_mk b, conv_self, h.num_mk]
  rw [arith, if_neg hne, h.variantOf_mk, hconv, h.num_mk, h.carry_eq]
  simp [patternNum_eq_zero_iff]

theorem Patterned.nativeIn {N : Nat} {signed : Bool} {mk : BitVec N → Value} {T : Variant}
    (h : Patterned N signed mk T) : NativeIn N signed mk := by
  intro a b
  refine ⟨?_, ?_, ?_, ?_⟩ <;> rw [h.arith_eq]
  · simp [exactResult, BitVec.ofInt_add]
  · simp [exactResult, sub_eq_add_neg, BitVec.ofInt_add, BitVec.ofInt_neg]
  · simp [exactResult, BitVec.ofInt_mul]
  · simp [exactResult, ofInt_tdiv_patternNum]

/-- Settles O23: each of the nine variants holds patterns of its width, read in its signedness. -/
theorem sameVariantArithmeticIsNative : Obligations.SameVariantArithmeticIsNative := by
  refine ⟨Patterned.nativeIn (T := .uint8) ?_, Patterned.nativeIn (T := .uint16) ?_,
    Patterned.nativeIn (T := .uint32) ?_, Patterned.nativeIn (T := .uint64) ?_,
    Patterned.nativeIn (T := .int8) ?_, Patterned.nativeIn (T := .int16) ?_,
    Patterned.nativeIn (T := .int32) ?_, Patterned.nativeIn (T := .int64) ?_,
    Patterned.nativeIn (T := .returnAddress) ?_⟩ <;>
  exact ⟨fun _ => rfl, fun _ => rfl, fun _ => rfl, nofun⟩

/-! ### Arithmetic instructions that complete -/

/-- An arithmetic instruction whose operation has a result and whose stack has room for it completes. -/
theorem arithInstr_of_ok {op : ArithOp} {s : State} {l r v : Value} {rest : List Value}
    (hs : s.ostack = r :: l :: rest) (hroom : ∀ d, s.config.ostackDepth = some d → rest.length < d)
    (hv : arith s.config.overflowPolicy op l r = .ok v) : arithInstr op s = .next (s.advanced (v :: rest)) := by
  have hpush : opush v (s.setOstack rest) = .ok ((s.setOstack rest).setOstack (v :: rest)) :=
    opush_of_room v (stackFull_eq_false_iff.2 hroom)
  rw [arithInstr, withTwo_of_two hs]
  simp only [State.setOstack_config, hv, orFatal_ok, hpush, advance_eq]
  rfl

/-- Settles O26: the operation's result is `None`, whichever it is. -/
theorem noneOnTheLeftAbsorbs : Obligations.NoneOnTheLeftAbsorbs := by
  intro s arg r rest hs hroom i hi
  have hnext (op : ArithOp) : arithInstr op s = .next (s.advanced (.none :: rest)) :=
    arithInstr_of_ok hs hroom (arith_none _ op r)
  rcases hi with rfl | rfl | rfl | rfl
  · exact hnext .add
  · exact hnext .sub
  · exact hnext .mul
  · exact hnext .div

/-- Wrapping moves an integer by a multiple of the width's modulus (spec R7). -/
theorem dvd_wrap_sub (T : Variant) (n : Int) : (2 ^ widthOf T : Int) ∣ wrap T n - n := by
  unfold wrap
  split
  · exact_mod_cast Int.dvd_bmod_sub_self
  · exact Int.dvd_emod_sub_self

/-- Carrying an integer gives the value of variant `T` whose number is the one of `range(T)` congruent to it. -/
theorem carry_spec {T : Variant} (hT : T ≠ .none) (x : Int) :
    variantOf (carry T x) = T ∧ minOf T ≤ num (carry T x) ∧ num (carry T x) ≤ maxOf T
      ∧ (2 ^ widthOf T : Int) ∣ num (carry T x) - x := by
  have hrange := inRange_num (carry T x)
  rw [variantOf_carry, inRange_iff] at hrange
  exact ⟨variantOf_carry T x, hrange.1, hrange.2, num_carry hT x ▸ dvd_wrap_sub T x⟩

/-- An arithmetic instruction completes on an integer or `ReturnAddress` on the left, no zero divisor, room for the
result, and a result that the policy lets pass (spec R127, R200). -/
theorem arithInstr_of_result {op : ArithOp} {s : State} {l r : Value} {rest : List Value}
    (hs : s.ostack = r :: l :: rest) (hroom : ∀ d, s.config.ostackDepth = some d → rest.length < d) (hl : l ≠ .none)
    (hz : ¬(op = .div ∧ conv (variantOf l) r = 0))
    (hpass : s.config.overflowPolicy = .wrap ∨
      inRange (variantOf l) (exactResult op (num l) (conv (variantOf l) r)) = true) :
    arithInstr op s
      = .next (s.advanced (carry (variantOf l) (exactResult op (num l) (conv (variantOf l) r)) :: rest)) := by
  apply arithInstr_of_ok hs hroom
  rcases arith_cases s.config.overflowPolicy op hl r with ⟨hop, hzero, -⟩ | ⟨-, hfatal, hout, -⟩ | ⟨-, -, hok⟩
  · exact absurd ⟨hop, hzero⟩ hz
  · simp [hfatal, hout] at hpass
  · exact hok

/-- A truncated quotient is zero or has the sign of its operands' product. -/
theorem sign_tdiv_bounds (a b : Int) : (0 ≤ a * b → 0 ≤ a.tdiv b) ∧ (a * b ≤ 0 → a.tdiv b ≤ 0) := by
  have hsign := Int.sign_tdiv a b
  rw [← Int.sign_mul] at hsign
  constructor <;> intro h
  · rw [← Int.sign_nonneg_iff, hsign]
    split
    · exact le_rfl
    · exact Int.sign_nonneg_iff.2 h
  · rw [← Int.sign_nonpos_iff, hsign]
    split
    · exact le_rfl
    · exact Int.sign_nonpos_iff.2 h

/-- Settles O25: the quotient is `Int.tdiv`, pinned by its size and its sign. -/
theorem divideCompletesTruncating : Obligations.DivideCompletesTruncating := by
  intro s arg l r rest hs hl hz hroom T
  have hT : T ≠ .none := mt variantOf_eq_none_iff.1 hl
  refine ⟨(num l).tdiv (conv T r), ⟨Int.natAbs_tdiv _ _, sign_tdiv_bounds _ _⟩, fun hpass => ?_⟩
  exact ⟨carry T ((num l).tdiv (conv T r)),
    arithInstr_of_result (op := .div) hs hroom hl (fun h => hz h.2) (hpass.imp_right inRange_iff.2), carry_spec hT _⟩

/-! ### Equality -/

/-- Within one variant nothing is coerced, so equality is identity. -/
theorem condEqual_iff_of_variantOf {l r : Value} (h : variantOf l = variantOf r) : condEqual l r = true ↔ l = r := by
  by_cases hl : l = .none
  · subst hl
    simp [condEqual_none, eq_comm]
  · rw [condEqual_of_ne hl, h, conv_self, decide_eq_true_iff]
    exact ⟨eq_of_variantOf_of_num h, congrArg num⟩

/-- Settles O30: within one variant equality is identity, and across variants it is the comparison of R138. -/
theorem equalityLaws : Obligations.EqualityLaws := by
  refine ⟨?_, ?_, ?_, ?_⟩
  · exact fun v => (condEqual_iff_of_variantOf rfl).2 rfl
  · exact fun l r h => condEqual_iff_of_variantOf h
  · exact fun r => by rw [condEqual_none, decide_eq_true_iff]
  · exact fun l r hl => by rw [condEqual_of_ne hl, decide_eq_true_iff]

end Sys2Proof.Machine
end

section
/-! SUPPORT. What a step that raised an error leaves (spec R183, R266): nothing but what its instruction had already done
to the two stacks. -/

namespace Sys2Proof.Machine

/-! ### The effects that an error leaves standing -/

/-- What an instruction has done to the stacks when it raises an error (spec R183). -/
inductive PartialEffect
  | nothing
  | topLost
  | topTwoLost
  | returnAddressPushed
  | callStackTopLost

/-- The effect that stands after the error `kind` of the instruction with opcode `op`, which found `n` values on the
operand stack; `op` is `none` when the fetch failed. -/
def partialEffect (op : Option Opcode) (kind : ErrorKind) (n : Nat) : PartialEffect :=
  match op, kind with
  | some .pop, .registerExpected => .topLost
  | some .add, .stackEmpty | some .subtract, .stackEmpty | some .multiply, .stackEmpty | some .divide, .stackEmpty
  | some .jumpIfEqual, .stackEmpty => if n = 1 then .topLost else .nothing
  | some .jumpIfEqual, .instructionExpected => .topTwoLost
  | some .jumpIfZero, .instructionExpected => .topLost
  | some .call, .instructionExpected => .returnAddressPushed
  | some .ret, .instructionExpected => .callStackTopLost
  | _, _ => .nothing

/-- `t` has the stacks of `s` but for the effect. -/
def PartialEffect.Left (e : PartialEffect) (s t : State) : Prop :=
  match e with
  | .nothing => t.ostack = s.ostack ∧ t.cstack = s.cstack
  | .topLost => (∃ v, s.ostack = v :: t.ostack) ∧ t.cstack = s.cstack
  | .topTwoLost => (∃ l r, s.ostack = r :: l :: t.ostack) ∧ t.cstack = s.cstack
  | .returnAddressPushed => t.ostack = s.ostack ∧ t.cstack = .returnAddress (s.pc + 1) :: s.cstack
  | .callStackTopLost => t.ostack = s.ostack ∧ ∃ v, variantOf v ≠ .returnAddress ∧ s.cstack = v :: t.cstack

theorem variantOf_ne_returnAddress {v : Value} (h : ∀ a, v ≠ .returnAddress a) : variantOf v ≠ .returnAddress := by
  cases v with
  | returnAddress a => exact absurd rfl (h a)
  | _ => nofun

/-- A pop of two values that finds fewer loses the one there is (spec R182). -/
theorem left_of_length_lt_two {s : State} (h : s.ostack.length < 2) :
    (if s.ostack.length = 1 then PartialEffect.topLost else .nothing).Left s (s.erred [] .stackEmpty) := by
  rcases ostack_shape s.ostack with hst | ⟨v, hst⟩ | ⟨r, l, rest, hst⟩ <;> rw [hst] at h ⊢
  · exact ⟨hst.symm, rfl⟩
  · exact ⟨⟨v, hst⟩, rfl⟩
  · simp at h

theorem ArithNext.left {s t : State} {kind : ErrorKind} (h : ArithNext s t) (hr : t.report = .errs kind) :
    kind = .stackEmpty ∧ (if s.ostack.length = 1 then PartialEffect.topLost else .nothing).Left s t := by
  rcases h with ⟨hlen, rfl⟩ | ⟨l, r, rest, v, -, -, rfl⟩ <;> cases hr
  exact ⟨rfl, left_of_length_lt_two hlen⟩

/-- A conditional jump fails on a bad operand alone, its values popped (spec R220). -/
theorem JumpNext.error {taken : Bool} {arg : Operand} {rest : List Value} {s t : State} {kind : ErrorKind}
    (h : JumpNext taken arg rest s t) (hr : t.report = .errs kind) :
    kind = .instructionExpected ∧ t = s.erred rest .instructionExpected := by
  rcases h with ⟨-, k, -, rfl⟩ | ⟨-, -, rfl⟩ | ⟨-, rfl⟩ <;> cases hr
  exact ⟨rfl, rfl⟩

theorem NextOf.left {i : Instr} {s t : State} {kind : ErrorKind} (h : NextOf i s t) (hr : t.report = .errs kind) :
    (partialEffect (some i.opcode) kind s.ostack.length).Left s t := by
  cases i with
  | push arg =>
    rcases h with ⟨v, -, -, rfl⟩ | ⟨-, rfl⟩ <;> cases hr
    exact ⟨rfl, rfl⟩
  | pop arg =>
    rcases h with ⟨-, rfl⟩ | ⟨v, rest, r, -, -, rfl⟩ | ⟨v, rest, hst, -, rfl⟩ <;> cases hr
    · exact ⟨rfl, rfl⟩
    · exact ⟨⟨v, hst⟩, rfl⟩
  | add arg | subtract arg | multiply arg | divide arg =>
    obtain ⟨rfl, hleft⟩ := ArithNext.left h hr
    exact hleft
  | jumpIfEqual arg =>
    rcases h with ⟨hlen, rfl⟩ | ⟨l, r, rest, hst, hjump⟩
    · cases hr
      exact left_of_length_lt_two hlen
    · obtain ⟨rfl, rfl⟩ := hjump.error hr
      exact ⟨⟨l, r, hst⟩, rfl⟩
  | jumpIfZero arg =>
    rcases h with ⟨-, rfl⟩ | ⟨v, rest, hst, hjump⟩
    · cases hr
      exact ⟨rfl, rfl⟩
    · obtain ⟨rfl, rfl⟩ := hjump.error hr
      exact ⟨⟨v, hst⟩, rfl⟩
  | jump arg =>
    rcases h with ⟨k, -, rfl⟩ | ⟨-, rfl⟩ <;> cases hr
    exact ⟨rfl, rfl⟩
  | call arg =>
    obtain ⟨-, ⟨k, -, rfl⟩ | ⟨-, rfl⟩⟩ := h <;> cases hr
    exact ⟨rfl, rfl⟩
  | ret arg =>
    rcases h with ⟨-, rfl⟩ | ⟨a, rest, -, rfl⟩ | ⟨v, rest, hst, hnot, rfl⟩ <;> cases hr
    · exact ⟨rfl, rfl⟩
    · exact ⟨rfl, v, variantOf_ne_returnAddress hnot, hst⟩
  | exit arg =>
    subst h
    cases hr

/-! ### The step that raised an error -/

/-- The opcode of the instruction at `pc`, if there is one. -/
def fetchedOpcode (s : State) : Option Opcode := s.program[s.pc.toNat]?.map Instr.opcode

theorem fetchedOpcode_eq_some {s : State} {op : Opcode} :
    fetchedOpcode s = some op ↔ ∃ i, s.program[s.pc.toNat]? = some i ∧ i.opcode = op :=
  Option.map_eq_some_iff

theorem step_error_left {s t : State} {kind : ErrorKind} (h : step s = .next t) (hr : t.report = .errs kind) :
    (partialEffect (fetchedOpcode s) kind s.ostack.length).Left s t := by
  rw [fetchedOpcode]
  rcases step_next h with ⟨hpast, rfl⟩ | ⟨i, hi, hnext⟩
  · rw [hpast]
    exact ⟨rfl, rfl⟩
  · rw [hi]
    exact hnext.left hr

theorem step_error_pc {s t : State} {kind : ErrorKind} (h : step s = .next t) (hr : t.report = .errs kind) :
    t.pc = s.pc :=
  (programCounterChangesAsTheRuleSays.1 s t h).1 ⟨kind, hr⟩

/-- The one step that writes a register continues. -/
theorem step_error_regs {s t : State} {kind : ErrorKind} (h : step s = .next t) (hr : t.report = .errs kind) :
    t.regs = s.regs := by
  cases step_effect h with
  | moves | calls | returns => rfl
  | stores => cases hr

/-- Settles O44: each listed case is one row of `partialEffect`, and every other row leaves both stacks unchanged. -/
theorem errorKeepsAllButTheListedCases : Obligations.ErrorKeepsAllButTheListedCases := by
  intro s t kind hstep hr
  have hleft := step_error_left hstep hr
  have hrow : ∀ {op k}, fetchedOpcode s = some op → kind = k →
      (partialEffect (some op) k s.ostack.length).Left s t := by
    rintro op _ hop rfl
    rwa [hop] at hleft
  simp only [← fetchedOpcode_eq_some]
  refine ⟨step_error_pc hstep hr, step_error_regs hstep hr, (step_effect hstep).program_eq,
    (step_effect hstep).config_eq, fun ⟨hop, hkind⟩ => hrow hop hkind, fun ⟨htwo, hkind, hlen⟩ => ?_,
    fun ⟨hop, hkind⟩ => hrow hop hkind, fun ⟨hop, hkind⟩ => hrow hop hkind, fun ⟨hop, hkind⟩ => hrow hop hkind,
    fun ⟨hop, hkind⟩ => hrow hop hkind, fun hpop hone hequal hzero hcall hreturn => ?_⟩
  · have htop : (if s.ostack.length = 1 then PartialEffect.topLost else .nothing).Left s t := by
      rcases htwo with hop | hop | hop | hop | hop <;> exact hrow hop hkind
    rw [if_pos hlen] at htop
    obtain ⟨⟨v, hst⟩, hcst⟩ := htop
    rw [hst, List.length_cons] at hlen
    exact ⟨List.eq_nil_of_length_eq_zero (by omega), hcst⟩
  · have hnothing : partialEffect (fetchedOpcode s) kind s.ostack.length = .nothing := by
      unfold partialEffect
      split
      case h_1 hop => exact absurd ⟨hop, rfl⟩ hpop
      case h_2 hop => exact if_neg fun hlen => hone ⟨.inl hop, rfl, hlen⟩
      case h_3 hop => exact if_neg fun hlen => hone ⟨.inr (.inl hop), rfl, hlen⟩
      case h_4 hop => exact if_neg fun hlen => hone ⟨.inr (.inr (.inl hop)), rfl, hlen⟩
      case h_5 hop => exact if_neg fun hlen => hone ⟨.inr (.inr (.inr (.inl hop))), rfl, hlen⟩
      case h_6 hop => exact if_neg fun hlen => hone ⟨.inr (.inr (.inr (.inr hop))), rfl, hlen⟩
      case h_7 hop => exact absurd ⟨hop, rfl⟩ hequal
      case h_8 hop => exact absurd ⟨hop, rfl⟩ hzero
      case h_9 hop => exact absurd ⟨hop, rfl⟩ hcall
      case h_10 hop => exact absurd ⟨hop, rfl⟩ hreturn
      case h_11 => rfl
    rwa [hnothing] at hleft

end Sys2Proof.Machine
end

section
/-! SUPPORT. How a `run` goes on and ends (spec R178): one step of it, under fuel and at the port alike. -/

namespace Sys2Proof.Machine

/-! ### The step that breaks -/

theorem ArithNext.report_ne_breaks {s t : State} (h : ArithNext s t) : t.report ≠ .breaks := by
  rcases h with ⟨-, rfl⟩ | ⟨l, r, rest, v, -, -, rfl⟩ <;> nofun

theorem JumpNext.report_ne_breaks {taken : Bool} {arg : Operand} {rest : List Value} {s t : State}
    (h : JumpNext taken arg rest s t) : t.report ≠ .breaks := by
  rcases h with ⟨-, k, -, rfl⟩ | ⟨-, -, rfl⟩ | ⟨-, rfl⟩ <;> nofun

/-- `Exit` alone breaks (spec R226). -/
theorem NextOf.eq_exit_of_breaks {i : Instr} {s t : State} (h : NextOf i s t) (hr : t.report = .breaks) :
    ∃ arg, i = .exit arg := by
  cases i with
  | exit arg => exact ⟨arg, rfl⟩
  | push arg => rcases h with ⟨v, -, -, rfl⟩ | ⟨-, rfl⟩ <;> cases hr
  | pop arg => rcases h with ⟨-, rfl⟩ | ⟨v, rest, r, -, -, rfl⟩ | ⟨v, rest, -, -, rfl⟩ <;> cases hr
  | add arg | subtract arg | multiply arg | divide arg => exact absurd hr (ArithNext.report_ne_breaks h)
  | jumpIfEqual arg =>
    rcases h with ⟨-, rfl⟩ | ⟨l, r, rest, -, hjump⟩
    · cases hr
    · exact absurd hr hjump.report_ne_breaks
  | jumpIfZero arg =>
    rcases h with ⟨-, rfl⟩ | ⟨v, rest, -, hjump⟩
    · cases hr
    · exact absurd hr hjump.report_ne_breaks
  | jump arg => rcases h with ⟨k, -, rfl⟩ | ⟨-, rfl⟩ <;> cases hr
  | call arg => obtain ⟨-, ⟨k, -, rfl⟩ | ⟨-, rfl⟩⟩ := h <;> cases hr
  | ret arg => rcases h with ⟨-, rfl⟩ | ⟨a, rest, -, rfl⟩ | ⟨v, rest, -, -, rfl⟩ <;> cases hr

theorem step_of_exit {s : State} {arg : Operand} (h : s.program[s.pc.toNat]? = some (.exit arg)) :
    step s = .next (s.setReport .breaks) :=
  (step_of_fetch h).trans (execExit_eq arg s)

theorem exists_exit_of_breaks {s t : State} (h : step s = .next t) (hr : t.report = .breaks) :
    ∃ arg, s.program[s.pc.toNat]? = some (.exit arg) := by
  rcases step_next h with ⟨-, rfl⟩ | ⟨i, hi, hnext⟩
  · cases hr
  · obtain ⟨arg, rfl⟩ := hnext.eq_exit_of_breaks hr
    exact ⟨arg, hi⟩

/-! ### One step of a run -/

/-- How a run ends when its next step is its last (spec R178): at an `Exit`, at an error or at a fatal condition. -/
inductive EndsAs (s : State) : RunEnd → Prop
  | exit {arg : Operand} (hi : s.program[s.pc.toNat]? = some (.exit arg)) : EndsAs s (.success (s.setReport .breaks))
  | error {t : State} {kind : ErrorKind} (hstep : step s = .next t) (hr : t.report = .errs kind) :
      EndsAs s (.error kind t)
  | fatal {kind : Fault} (hstep : step s = .fault kind) : EndsAs s (.fatal kind)

/-- The next step of a run continues or ends it: no step is refused, and every next state bears an outcome. -/
theorem continues_or_endsAs (s : State) :
    (∃ t, step s = .next t ∧ t.report = .continues) ∨ ∃ e, EndsAs s e := by
  cases hstep : step s with
  | fault kind => exact .inr ⟨_, .fatal hstep⟩
  | refused q => exact absurd hstep (noStepIsRefused s (.exit .none) q).2
  | next t =>
    cases hr : t.report with
    | continues => exact .inl ⟨t, rfl, hr⟩
    | breaks =>
      obtain ⟨arg, hi⟩ := exists_exit_of_breaks hstep hr
      exact .inr ⟨_, .exit hi⟩
    | errs kind => exact .inr ⟨_, .error hstep hr⟩
    | notStepped => exact absurd hr (step_report_ne_notStepped hstep)

theorem run_succ_of_continues {s t : State} (hstep : step s = .next t) (hr : t.report = .continues) (fuel : Nat) :
    run (fuel + 1) s = run fuel t := by
  simp only [run, hstep, hr]

theorem EndsAs.run_succ {s : State} {e : RunEnd} (h : EndsAs s e) (fuel : Nat) : run (fuel + 1) s = e := by
  cases h with
  | exit hi => simp only [run, step_of_exit hi, State.setReport_report]
  | error hstep hr => simp only [run, hstep, hr]
  | fatal hstep => simp only [run, hstep]

/-! ### `run` under fuel -/

/-- Settles O56, by induction on the fuel: a step that ends the run ends it whatever fuel is left. -/
theorem moreFuelKeepsAFinishedRun : Obligations.MoreFuelKeepsAFinishedRun := by
  intro fuel more s hended
  induction fuel generalizing s with
  | zero => exact absurd rfl (hended s)
  | succ fuel ih =>
    rw [Nat.succ_add]
    rcases continues_or_endsAs s with ⟨t, hstep, hr⟩ | ⟨e, he⟩
    · have hrun := run_succ_of_continues hstep hr
      rw [hrun] at hended ⊢
      rw [hrun]
      exact ih t hended
    · rw [he.run_succ, he.run_succ]

theorem exists_continuesTo_of_run_eq_success {fuel : Nat} {s t : State} (h : run fuel s = .success t) :
    ∃ n u arg, n < fuel ∧ ContinuesTo n s u ∧ u.program[u.pc.toNat]? = some (.exit arg)
      ∧ t = { u with report := .breaks } := by
  induction fuel generalizing s with
  | zero => cases h
  | succ fuel ih =>
    rcases continues_or_endsAs s with ⟨v, hstep, hr⟩ | ⟨e, he⟩
    · rw [run_succ_of_continues hstep hr] at h
      obtain ⟨n, u, arg, hn, hto, hi, ht⟩ := ih h
      exact ⟨n + 1, u, arg, by omega, ⟨v, hstep, hr, hto⟩, hi, ht⟩
    · rw [he.run_succ] at h
      subst h
      cases he with
      | exit hi => exact ⟨0, s, _, by omega, rfl, hi, rfl⟩

theorem run_of_continuesTo_exit {n : Nat} {s u : State} {arg : Operand} (hto : ContinuesTo n s u)
    (hi : u.program[u.pc.toNat]? = some (.exit arg)) : run (n + 1) s = .success (u.setReport .breaks) := by
  induction n generalizing s with
  | zero =>
    cases hto
    exact (EndsAs.exit hi).run_succ 0
  | succ n ih =>
    obtain ⟨v, hstep, hr, hto⟩ := hto
    rw [run_succ_of_continues hstep hr]
    exact ih hto

/-- Settles O55: the run with just enough fuel for the steps and the `Exit` succeeds, and more fuel keeps that end. -/
theorem runSucceedsExactlyAtExit : Obligations.RunSucceedsExactlyAtExit := by
  intro fuel s t
  refine ⟨exists_continuesTo_of_run_eq_success, ?_⟩
  rintro ⟨n, u, arg, hn, hto, hi, rfl⟩
  have hrun := run_of_continuesTo_exit hto hi
  obtain ⟨more, rfl⟩ := Nat.exists_eq_add_of_le hn
  exact (moreFuelKeepsAFinishedRun (n + 1) more s fun v hv => by cases hrun.symm.trans hv).trans hrun

/-! ### `run` at the port -/

/-- The port after a `run` that has come as far as `e`. -/
def RunEnd.port (e : RunEnd) : Port :=
  match e with
  | .success u => .ready u.settled
  | .error _ u => .ready u.settled
  | .fatal kind => .dead kind
  | .refused q => .unmodelled q
  | .stillRunning u => .running u

/-- What the host is told of a `run` that has come as far as `e`. -/
def RunEnd.reply (e : RunEnd) : Option Reply :=
  match e with
  | .success _ => some .success
  | .error kind _ => some (.error kind)
  | .fatal kind => some (.fatal kind)
  | .refused _ => none
  | .stillRunning _ => none

theorem RunEnd.port_eq_ready {e : RunEnd} {t : State} :
    e.port = .ready t ↔ ∃ u, t = u.settled ∧ (e = .success u ∨ ∃ kind, e = .error kind u) := by
  cases e <;> simp [RunEnd.port, eq_comm]

theorem RunEnd.port_eq_dead {e : RunEnd} {kind : Fault} : e.port = .dead kind ↔ e = .fatal kind := by
  cases e <;> simp [RunEnd.port]

theorem runOnce_of_continues {s t : State} (hstep : step s = .next t) (hr : t.report = .continues) :
    runOnce s = (.running t, none) := by
  simp only [runOnce, hstep, hr]

theorem EndsAs.runOnce_eq {s : State} {e : RunEnd} (h : EndsAs s e) : runOnce s = (e.port, e.reply) := by
  cases h with
  | exit hi => simp only [runOnce, step_of_exit hi, State.setReport_report, RunEnd.port, RunEnd.reply]
  | error hstep hr => simp only [runOnce, hstep, hr, RunEnd.port, RunEnd.reply]
  | fatal hstep => simp only [runOnce, hstep, RunEnd.port, RunEnd.reply]

/-- Settles O58: a step that continues has no reply, and each of the three ends has its own. -/
theorem runInProgressEndsOnlyAtExitOrFailure : Obligations.RunInProgressEndsOnlyAtExitOrFailure := by
  intro s q a hwork
  have honce : runOnce s = (q, a) := Option.some.inj hwork
  rcases continues_or_endsAs s with ⟨t, hstep, hr⟩ | ⟨e, he⟩
  · rw [runOnce_of_continues hstep hr] at honce
    cases honce
    exact ⟨fun _ => ⟨t, hstep, hr, rfl⟩, fun hne => absurd rfl hne⟩
  · rw [he.runOnce_eq] at honce
    cases honce
    cases he with
    | exit hi => exact ⟨nofun, fun _ => .inl ⟨rfl, ⟨_, hi⟩, rfl⟩⟩
    | error hstep hr => exact ⟨nofun, fun _ => .inr (.inl ⟨_, _, hstep, hr, rfl, rfl⟩)⟩
    | fatal hstep => exact ⟨nofun, fun _ => .inr (.inr ⟨_, hstep, rfl, rfl⟩)⟩

/-- The port after `n` steps of a run in progress; `none` when the run was over before. -/
def workFor (n : Nat) (s : State) : Option Port := portRun (List.replicate n .work) (.running s)

theorem workFor_succ_of_continues {s t : State} (hstep : step s = .next t) (hr : t.report = .continues) (n : Nat) :
    workFor (n + 1) s = workFor n t :=
  portRun_cons_of_some (congrArg some (runOnce_of_continues hstep hr))

theorem EndsAs.workFor_succ {s : State} {e : RunEnd} (h : EndsAs s e) (n : Nat) :
    workFor (n + 1) s = portRun (List.replicate n .work) e.port :=
  portRun_cons_of_some (congrArg some h.runOnce_eq)

/-- Once a run has ended, the port makes no step of its own. -/
theorem EndsAs.workFor_succ_eq_some {s : State} {e : RunEnd} {n : Nat} {q : Port} (h : EndsAs s e)
    (hwork : workFor (n + 1) s = some q) : q = e.port := by
  rw [h.workFor_succ] at hwork
  cases n with
  | zero => exact (Option.some.inj hwork).symm
  | succ n => cases h <;> cases hwork

theorem eq_port_of_workFor {n : Nat} {s : State} {q : Port} (h : workFor n s = some q) : q = (run n s).port := by
  induction n generalizing s with
  | zero => exact (Option.some.inj h).symm
  | succ n ih =>
    rcases continues_or_endsAs s with ⟨t, hstep, hr⟩ | ⟨e, he⟩
    · rw [workFor_succ_of_continues hstep hr] at h
      rw [run_succ_of_continues hstep hr]
      exact ih h
    · rw [he.run_succ]
      exact he.workFor_succ_eq_some h

theorem exists_workFor_eq_port (fuel : Nat) (s : State) : ∃ n, workFor n s = some (run fuel s).port := by
  induction fuel generalizing s with
  | zero => exact ⟨0, rfl⟩
  | succ fuel ih =>
    rcases continues_or_endsAs s with ⟨t, hstep, hr⟩ | ⟨e, he⟩
    · obtain ⟨n, hn⟩ := ih t
      exact ⟨n + 1, by rw [workFor_succ_of_continues hstep hr, run_succ_of_continues hstep hr, hn]⟩
    · exact ⟨1, by rw [he.workFor_succ, he.run_succ]; rfl⟩

/-- The ports that a run in progress passes through and ends in are those of `run` under the several fuels. -/
theorem exists_workFor_eq_iff {s : State} {q : Port} :
    (∃ n, workFor n s = some q) ↔ ∃ fuel, (run fuel s).port = q := by
  constructor
  · rintro ⟨n, hn⟩
    exact ⟨n, (eq_port_of_workFor hn).symm⟩
  · rintro ⟨fuel, rfl⟩
    exact exists_workFor_eq_port fuel s

theorem workFor_of_stillRunning {n : Nat} {s t : State} (h : run n s = .stillRunning t) :
    workFor n s = some (.running t) := by
  induction n generalizing s with
  | zero => cases h; rfl
  | succ n ih =>
    rcases continues_or_endsAs s with ⟨u, hstep, hr⟩ | ⟨e, he⟩
    · rw [run_succ_of_continues hstep hr] at h
      rw [workFor_succ_of_continues hstep hr]
      exact ih h
    · rw [he.run_succ] at h
      subst h
      cases he

theorem portRun_issue_run (n : Nat) (s : State) :
    portRun (.issue .run :: List.replicate n .work) (.ready s) = workFor n s :=
  portRun_cons_of_some rfl

/-- Settles O59: the port after `n` steps is that of `run` under fuel `n`, as long as the run is not over. -/
theorem portRunEndsAsFueledRunDoes : Obligations.PortRunEndsAsFueledRunDoes := by
  intro s
  simp only [portRun_issue_run]
  refine ⟨fun t => exists_workFor_eq_iff.trans (exists_congr fun _ => RunEnd.port_eq_ready),
    fun kind => exists_workFor_eq_iff.trans (exists_congr fun _ => RunEnd.port_eq_dead), fun hbusy n => ?_⟩
  obtain ⟨t, ht⟩ := hbusy n
  exact ⟨t, workFor_of_stillRunning ht⟩

end Sys2Proof.Machine
end

section
/-! SUPPORT. The engine around an instruction: the fetch, the word placed at `pc`, and the commands of the port that
complete at once. -/

namespace Sys2Proof.Machine

/-! ### Fetch -/

/-- Settles O5: the error past the end changes the report alone, which the repeated step does not read. -/
theorem fetchIsCheckedAgainstProgramLength : Obligations.FetchIsCheckedAgainstProgramLength := by
  intro s
  refine ⟨fun hpast => ?_, fun hlt => step_of_fetch (List.getElem?_eq_getElem hlt)⟩
  have hstep := step_of_past_end (fetch_eq_none_iff.2 hpast)
  refine ⟨hstep, fun t ht => ?_⟩
  cases hstep.symm.trans ht
  exact (stepNeverReadsTheReport s _).trans hstep

/-- A word that decodes replaces the Program alone (log entry 4). -/
theorem withFetchWord_of_decodes {nbits w : Nat} {i : Instr} (s : State) (h : decodeTableWord nbits w = some i) :
    s.withFetchWord nbits w = s.setProgram (placeAt i s.pc.toNat s.program) := by
  simp only [State.withFetchWord, h, State.setProgram]

/-- Settles O7: the placed instruction is fetched, since `placeAt` puts it at `pc`. -/
theorem placedWordIsExecutedNext : Obligations.PlacedWordIsExecutedNext := by
  intro s nbits w i hdecodes
  rw [withFetchWord_of_decodes s hdecodes]
  exact ⟨step_of_fetch (placeAt_at i _ _), ⟨_, rfl⟩, fun k => placeAt_get i _ k _⟩

/-! ### The commands of the port -/

theorem hostPush_of_room {s : State} (v : Value) (h : stackFull s.config.ostackDepth s.ostack.length = false) :
    hostPush v s = .next (s.setOstack (v :: s.ostack)).settled := by
  rw [hostPush, opush_of_room v h, orFatal_ok]

theorem hostPush_of_full {s : State} (v : Value) (h : stackFull s.config.ostackDepth s.ostack.length = true) :
    hostPush v s = .fault .stackOverflow := by
  rw [hostPush, opush_of_full v h, orFatal_error]

theorem perform_pop_of_cons {s : State} {v : Value} {rest : List Value} (h : s.ostack = v :: rest) :
    perform .pop s = (.ready (s.setOstack rest).settled, some (.value v)) := by
  simp only [perform, hostPop, opop_of_cons h]

theorem perform_pop_of_nil {s : State} (h : s.ostack = []) :
    perform .pop s = (.ready s.settled, some (.error .stackEmpty)) := by
  simp only [perform, hostPop, opop_of_nil h]

/-- Settles O54. -/
theorem hostPushAndPopActOnTheTop : Obligations.HostPushAndPopActOnTheTop := fun _ =>
  ⟨fun v hroom => hostPush_of_room v (stackFull_eq_false_iff.2 hroom),
    fun v d hdepth hlen => hostPush_of_full v (stackFull_eq_true_iff.2 ⟨d, hdepth, hlen.ge⟩),
    fun _ _ => perform_pop_of_cons, perform_pop_of_nil⟩

/-- A command completed with the outcome `a`: it left the port ready, or the block dead with that outcome. -/
def CompletedAs (q : Port) (a : Reply) : Prop :=
  (∃ t, q = .ready t ∧ ∀ kind, a ≠ .fatal kind) ∨ (∃ kind, q = .dead kind ∧ a = .fatal kind)

/-- Every command but `run` completes at once (spec R186). -/
theorem perform_completes {c : Command} (hc : c ≠ .run) (s : State) :
    ∃ q a, perform c s = (q, some a) ∧ CompletedAs q a := by
  cases c with
  | run => exact absurd rfl hc
  | push v =>
    rcases hostPush_cases v s with ⟨-, e⟩ | ⟨-, e⟩ <;> rw [perform, e]
    · exact ⟨_, _, rfl, .inl ⟨_, rfl, nofun⟩⟩
    · exact ⟨_, _, rfl, .inr ⟨_, rfl, rfl⟩⟩
  | pop =>
    rcases hostPop_cases s with ⟨-, e⟩ | ⟨v, rest, -, e⟩ <;> rw [perform, e]
    · exact ⟨_, _, rfl, .inl ⟨_, rfl, nofun⟩⟩
    · exact ⟨_, _, rfl, .inl ⟨_, rfl, nofun⟩⟩
  | step =>
    rw [perform]
    rcases performStep_cases s with ⟨t, -, e⟩ | ⟨kind, -, e⟩ | ⟨q, hrefused, -⟩
    · exact ⟨_, _, e, .inl ⟨_, rfl, nofun⟩⟩
    · exact ⟨_, _, e, .inr ⟨_, rfl, rfl⟩⟩
    · exact absurd hrefused (noStepIsRefused s (.exit .none) q).2
  | reset => exact ⟨_, _, rfl, .inl ⟨_, rfl, nofun⟩⟩

/-- Settles O57. -/
theorem portAcceptsCommandsOnlyWhenReady : Obligations.PortAcceptsCommandsOnlyWhenReady := by
  refine ⟨fun c p => ?_, fun p => ?_, fun s => rfl, fun c s hc => ?_⟩
  · cases p <;> simp [portStep]
  · cases p <;> simp [portStep]
  · obtain ⟨q, a, e, hdone⟩ := perform_completes hc s
    exact ⟨q, a, congrArg some e, hdone⟩

end Sys2Proof.Machine
end

section
/-! SUPPORT. Push and Pop (spec/42_stack_moves.md): the completion of each, and the two of them in a row. -/

namespace Sys2Proof.Machine

/-! ### Push -/

theorem execPush_of_value {arg : Operand} {s : State} {v : Value} (hv : argValue arg s = .ok v)
    (hroom : ∀ d, s.config.ostackDepth = some d → s.ostack.length < d) :
    execPush arg s = .next (s.advanced (v :: s.ostack)) := by
  rw [execPush, hv, orRaise_ok, opush_of_room v (stackFull_eq_false_iff.2 hroom)]
  rfl

theorem argValue_none_of_pushes {s : State} (h : s.config.pushNone = .pushes) : argValue .none s = .ok .none := by
  simp only [argValue, h]

/-- Settles O19: with room, `Push` completes on whatever value its operand has, and each of these operands has one. -/
theorem pushPutsTheOperandsValueOnTop : Obligations.PushPutsTheOperandsValueOnTop := by
  intro s hroom pushes
  have hpush {arg v} (hv : argValue arg s = .ok v) : pushes arg v := execPush_of_value hv hroom
  exact ⟨fun _ => hpush rfl, fun hnone => hpush (argValue_none_of_pushes hnone),
    fun _ => hpush rfl, fun _ => hpush rfl, fun _ => hpush rfl, fun _ => hpush rfl,
    fun _ => hpush rfl, fun _ => hpush rfl, fun _ => hpush rfl, fun _ => hpush rfl⟩

/-! ### Pop -/

theorem execPop_register {s : State} {v : Value} {rest : List Value} (r : Reg) (h : s.ostack = v :: rest) :
    execPop (.register r) s = .next ((s.setReg r v).advanced rest) := by
  rw [execPop, opop_of_cons h]
  rfl

theorem State.reg_setReg_advanced_self (s : State) (r : Reg) (v : Value) (st : List Value) :
    ((s.setReg r v).advanced st).reg r = v :=
  RegBank.get_set_self s.regs r v

theorem State.reg_setReg_advanced_ne (s : State) {r q : Reg} (h : q ≠ r) (v : Value) (st : List Value) :
    ((s.setReg r v).advanced st).reg q = s.reg q :=
  RegBank.get_set_ne s.regs h v

/-- Settles O20. -/
theorem popStoresTheTopInTheRegister : Obligations.PopStoresTheTopInTheRegister := fun s r v rest htop =>
  ⟨(s.setReg r v).advanced rest, execPop_register r htop, s.reg_setReg_advanced_self r v rest,
    fun _ hq => s.reg_setReg_advanced_ne hq v rest, rfl, rfl, rfl, rfl, rfl, rfl⟩

/-! ### Push, then Pop -/

/-- Writing a register's own value back changes nothing. -/
@[simp] theorem State.setReg_reg_self (s : State) (r : Reg) : s.setReg r (s.reg r) = s :=
  congrArg s.setRegs (RegBank.set_get_self s.regs r)

/-- `pc + 1` does not wrap below `PROG_LEN`, which is below `2^64` (spec R5). -/
theorem pc_add_one_toNat {s : State} (hfits : programWellFormed s.program = true)
    (hpc : s.pc.toNat < s.program.length) : (s.pc + 1).toNat = s.pc.toNat + 1 := by
  have hlen : s.program.length < 2 ^ 64 := of_decide_eq_true hfits
  exact BitVec.toNat_add_of_lt (show s.pc.toNat + (1 : Index).toNat < 2 ^ 64 from lt_of_le_of_lt hpc hlen)

/-- Settles O21: `Push` leaves a state whose top is the value of `Ra`, `pc` at the `Pop`, and the `Pop` puts that value
into `Rb`; into `Ra` itself it writes what `Ra` holds. -/
theorem pushThenPopMovesARegister : Obligations.PushThenPopMovesARegister := by
  intro s a b hfits hpush hpop hroom
  let u := s.advanced (s.reg a :: s.ostack)
  let t := (u.setReg b (s.reg a)).advanced s.ostack
  have hupc : u.pc.toNat = s.pc.toNat + 1 := pc_add_one_toNat hfits (List.getElem?_eq_some_iff.1 hpush).1
  have hufetch : fetch u = some (.pop (.register b)) := (congrArg (s.program[·]?) hupc).trans hpop
  have hu : step s = .next u := (step_of_fetch hpush).trans (execPush_of_value rfl hroom)
  have ht : step u = .next t := (step_of_fetch hufetch).trans (execPop_register b rfl)
  have htpc : t.pc.toNat = s.pc.toNat + 2 := by
    rw [← Nat.add_assoc s.pc.toNat 1 1, ← hupc]
    exact pc_add_one_toNat (s := u) hfits (List.getElem?_eq_some_iff.1 hufetch).1
  refine ⟨u, t, hu, ht, u.reg_setReg_advanced_self b _ _, fun q hq => u.reg_setReg_advanced_ne hq _ _, rfl, rfl,
    htpc, ?_⟩
  rintro rfl
  calc t = u.advanced s.ostack := congrArg (·.advanced s.ostack) (u.setReg_reg_self a)
    _ = (s.setPc (s.pc + 1 + 1)).setReport .continues := rfl
    _ = (s.setPc (s.pc + 2)).setReport .continues :=
      congrArg (fun pc => (s.setPc pc).setReport .continues) (BitVec.add_assoc s.pc 1 1)

end Sys2Proof.Machine
end

section
/-! SUPPORT. Add, Subtract and Multiply (spec/43_arithmetic.md): the completion that the three share. -/

namespace Sys2Proof.Machine

/-- An arithmetic instruction that does not divide completes with the value of the left variant that carries its exact
result, when the policy is `wrap` or that result is in range (spec R127, R129). -/
theorem arithInstr_completes_of_ne_div {op : ArithOp} (hop : op ≠ .div) {s : State} {l r : Value} {rest : List Value}
    (hs : s.ostack = r :: l :: rest) (hl : l ≠ .none) (hroom : ∀ d, s.config.ostackDepth = some d → rest.length < d)
    (hpass : s.config.overflowPolicy = .wrap ∨
      (minOf (variantOf l) ≤ exactResult op (num l) (conv (variantOf l) r)
        ∧ exactResult op (num l) (conv (variantOf l) r) ≤ maxOf (variantOf l))) :
    ∃ v, arithInstr op s = .next (s.advanced (v :: rest))
      ∧ variantOf v = variantOf l ∧ minOf (variantOf l) ≤ num v ∧ num v ≤ maxOf (variantOf l)
      ∧ (2 ^ widthOf (variantOf l) : Int) ∣ num v - exactResult op (num l) (conv (variantOf l) r) :=
  ⟨carry (variantOf l) (exactResult op (num l) (conv (variantOf l) r)),
    arithInstr_of_result hs hroom hl (fun h => hop h.1) (hpass.imp_right inRange_iff.2),
    carry_spec (mt variantOf_eq_none_iff.1 hl) _⟩

/-- Settles O24: each of the three is the common form at its operation, none of which divides. -/
theorem addSubtractMultiplyComplete : Obligations.AddSubtractMultiplyComplete :=
  fun _ _ _ _ _ hs hl hroom =>
    ⟨arithInstr_completes_of_ne_div (op := .add) nofun hs hl hroom,
      arithInstr_completes_of_ne_div (op := .sub) nofun hs hl hroom,
      arithInstr_completes_of_ne_div (op := .mul) nofun hs hl hroom⟩

end Sys2Proof.Machine
end

section
/-! SUPPORT. Control flow (spec/44_control_flow.md): the completion of each jump, `Call`, `Return` and `Exit`, and the
call stack over a balanced stretch of steps. -/

namespace Sys2Proof.Machine

/-! ### Jumps -/

theorem takeJump_instruction (t : Index) (s : State) :
    takeJump (.instruction t) s = .next ((s.setPc t).setReport .continues) := rfl

theorem takeJump_of_not_instruction {arg : Operand} (h : arg.isInstruction = false) (s : State) :
    takeJump arg s = .next (s.setReport (.errs .instructionExpected)) := by
  rcases argTarget_cases arg with ⟨t, rfl, -⟩ | ⟨-, herr⟩
  · cases h
  · rw [takeJump, herr, orRaise_error]

/-- A conditional jump whose values leave `rest` completes in the two ways of spec R220: at the target when the
condition holds, else at the next instruction, its operand not looked at (decision D18). -/
theorem jumpWhen_completes {taken : Bool} {P : Prop} (hP : taken = true ↔ P) (rest : List Value) (s : State) :
    (P → ∀ t, jumpWhen taken (.instruction t) (s.setOstack rest)
      = .next (((s.setOstack rest).setPc t).setReport .continues)) ∧
    (¬P → ∀ arg, jumpWhen taken arg (s.setOstack rest) = .next (s.advanced rest)) := by
  cases taken with
  | true => exact ⟨fun _ _ => rfl, fun hn => absurd (hP.1 rfl) hn⟩
  | false => exact ⟨fun h => absurd (hP.2 h) Bool.false_ne_true, fun _ _ => rfl⟩

theorem execJumpIfZero_of_cons {s : State} {v : Value} {rest : List Value} (arg : Operand) (h : s.ostack = v :: rest) :
    execJumpIfZero arg s = jumpWhen (condZero v) arg (s.setOstack rest) := by
  rw [execJumpIfZero, opop_of_cons h, orRaise_ok]

theorem execJumpIfEqual_of_two {s : State} {l r : Value} {rest : List Value} (arg : Operand)
    (h : s.ostack = r :: l :: rest) :
    execJumpIfEqual arg s = jumpWhen (condEqual l r) arg (s.setOstack rest) :=
  withTwo_of_two h

/-- Settles O32: the 64-bit test of `JumpIfZero` is that of the number. -/
theorem jumpIfZeroTestsTheWholeNumber : Obligations.JumpIfZeroTestsTheWholeNumber := by
  intro s v rest hs
  have hzero : condZero v = true ↔ num v = 0 := by rw [condZero_eq, decide_eq_true_iff]
  simp only [exec, execJumpIfZero_of_cons _ hs]
  exact jumpWhen_completes hzero rest s

/-- `eq(l, r)` of spec R138 in its two cases. -/
theorem condEqual_eq_true_iff {l r : Value} :
    condEqual l r = true ↔ (l = .none ∧ r = .none) ∨ (l ≠ .none ∧ num l = conv (variantOf l) r) := by
  by_cases hl : l = .none
  · subst hl
    simp [condEqual_none]
  · simp [condEqual_of_ne hl, hl]

/-- Settles O31. -/
theorem jumpIfEqualComparesAndConsumes : Obligations.JumpIfEqualComparesAndConsumes := by
  intro s l r rest hs
  simp only [exec, execJumpIfEqual_of_two _ hs]
  exact jumpWhen_completes condEqual_eq_true_iff rest s

/-- Settles O33: the target is loaded unchecked, and it is the next fetch that finds it past the end. -/
theorem jumpSetsTheCounterVerbatim : Obligations.JumpSetsTheCounterVerbatim := fun s =>
  ⟨fun t => takeJump_instruction t s,
    fun t hpast => step_of_past_end (s := (s.setPc t).setReport .continues) (fetch_eq_none_iff.2 hpast),
    fun _ harg => takeJump_of_not_instruction harg s, fun _ => rfl⟩

/-! ### Call and Return -/

theorem execCall_of_room {s : State} (arg : Operand)
    (hroom : ∀ d, s.config.cstackDepth = some d → s.cstack.length < d) : execCall arg s = takeJump arg s.called := by
  rw [execCall, cpush_of_room _ (stackFull_eq_false_iff.2 hroom), orFatal_ok]

/-- Settles O34: the return address is on the call stack before the operand is resolved. -/
theorem callPushesTheReturnAddressAndJumps : Obligations.CallPushesTheReturnAddressAndJumps := fun s hroom =>
  ⟨fun t => (execCall_of_room _ hroom).trans (takeJump_instruction t s.called),
    fun arg harg => (execCall_of_room arg hroom).trans (takeJump_of_not_instruction harg s.called)⟩

theorem execReturn_of_returnAddress {s : State} {a : Index} {rest : List Value} (arg : Operand)
    (h : s.cstack = .returnAddress a :: rest) :
    execReturn arg s = .next (((s.setCstack rest).setPc a).setReport .continues) := by
  rw [execReturn, cpop_of_cons h]
  rfl

theorem execReturn_of_other {s : State} {v : Value} {rest : List Value} (arg : Operand) (h : s.cstack = v :: rest)
    (hv : variantOf v ≠ .returnAddress) :
    execReturn arg s = .next ((s.setCstack rest).setReport (.errs .instructionExpected)) := by
  rw [execReturn, cpop_of_cons h]
  cases v with
  | returnAddress a => exact absurd rfl hv
  | _ => rfl

theorem execReturn_of_nil {s : State} (arg : Operand) (h : s.cstack = []) :
    execReturn arg s = .next (s.setReport (.errs .callStackEmpty)) := by
  rw [execReturn, cpop_of_nil h, orRaise_error]

/-- Settles O35. -/
theorem returnPopsTheCallStackIntoTheCounter : Obligations.ReturnPopsTheCallStackIntoTheCounter := fun _ arg =>
  ⟨fun _ _ => execReturn_of_returnAddress arg, fun _ _ => execReturn_of_other arg, execReturn_of_nil arg⟩

/-! ### Exit -/

/-- Settles O36: `Exit` changes the report alone, so the further step finds it at `pc` again. -/
theorem exitAloneBreaksAndChangesNothing : Obligations.ExitAloneBreaksAndChangesNothing := by
  refine ⟨fun s arg => execExit_eq arg s, fun s t arg hi hstep => ?_, fun s t => exists_exit_of_breaks, rfl⟩
  cases (step_of_exit hi).symm.trans hstep
  exact step_of_exit (s := s.setReport .breaks) hi

/-! ### A balanced stretch of steps -/

/-- A step changes the call stack at its top alone: of the stacks before and after, one is what lies on the bottom of
the other. -/
theorem StepEffect.cstack_suffix {s t : State} (h : StepEffect s t) :
    t.cstack <:+ s.cstack ∨ s.cstack <:+ t.cstack := by
  cases h with
  | moves | stores => exact .inl List.suffix_rfl
  | calls => exact .inr (List.suffix_cons _ _)
  | @returns arg v rest pc r hi hst => exact .inl (hst ▸ List.suffix_cons v rest)

/-- What lies on the bottom of the call stack stays there through a step that does not shorten the stack below it. -/
theorem StepEffect.keeps_cstack_base {s t : State} {base : List Value} (h : StepEffect s t) (hs : base <:+ s.cstack)
    (hlen : base.length ≤ t.cstack.length) : base <:+ t.cstack := by
  rcases h.cstack_suffix with hpopped | hpushed
  · exact List.suffix_of_suffix_length_le hs hpopped hlen
  · exact hs.trans hpushed

theorem StaysAbove.le_length {d n : Nat} {s t : State} (h : StaysAbove d n s t) : d ≤ s.cstack.length := by
  cases n with
  | zero => exact h.2
  | succ n => exact h.1

theorem StaysAbove.keeps_cstack_base {n : Nat} {s t : State} {base : List Value} (h : StaysAbove base.length n s t)
    (hs : base <:+ s.cstack) : base <:+ t.cstack := by
  induction n generalizing s with
  | zero =>
    obtain ⟨rfl, -⟩ := h
    exact hs
  | succ n ih =>
    obtain ⟨-, u, hstep, hrest⟩ := h
    exact ih hrest ((step_effect hstep).keeps_cstack_base hs hrest.le_length)

/-- A `Call` that answers a next state found room, pushed its return address and jumped. -/
theorem eq_of_step_call {s u : State} {k : Index} (hi : s.program[s.pc.toNat]? = some (.call (.instruction k)))
    (hstep : step s = .next u) : u = (s.called.setPc k).setReport .continues := by
  rw [step_of_fetch hi] at hstep
  obtain ⟨-, ⟨k', hk, rfl⟩ | ⟨hnot, -⟩⟩ := exec_next hstep
  · cases hk
    rfl
  · cases hnot

/-- Settles O37: the call stack that the `Call` left, return address on top, lies on the bottom of every call stack of
the stretch, and at its end, being as long, is all of it. -/
theorem balancedReturnResumesAfterTheCall : Obligations.BalancedReturnResumesAfterTheCall := by
  intro s u v w k arg n hcall hu hstays hlen hret hw
  have hbase : v.cstack = u.cstack := ((hstays.keeps_cstack_base List.suffix_rfl).eq_of_length hlen.symm).symm
  rw [eq_of_step_call hcall hu] at hbase ⊢
  cases ((step_of_fetch hret).trans (execReturn_of_returnAddress arg hbase)).symm.trans hw
  exact ⟨rfl, rfl, rfl⟩

end Sys2Proof.Machine
end

section
/-! SUPPORT. The fatal conditions (spec R257 to R260): `FaultOf` lists the faults of an instruction exactly, and each of
the three kinds is read off from it. -/

namespace Sys2Proof.Machine

/-! ### The faults of an instruction, exactly -/

theorem ArithFault.arithInstr_eq {op : ArithOp} {s : State} {f : Fault} (h : ArithFault op s f) :
    arithInstr op s = .fault f := by
  obtain ⟨l, r, rest, hst, herr | ⟨⟨v, hv⟩, hfull, rfl⟩⟩ := h <;> rw [arithInstr, withTwo_of_two hst]
  · simp only [State.setOstack_config, herr, orFatal_error]
  · have hpush : opush v (s.setOstack rest) = .error .stackOverflow := opush_of_full v hfull
    simp only [State.setOstack_config, hv, orFatal_ok, hpush, orFatal_error]

theorem FaultOf.exec_eq {i : Instr} {s : State} {f : Fault} (h : FaultOf i s f) : exec i s = .fault f := by
  cases i with
  | push arg =>
    obtain ⟨⟨v, hv⟩, hfull, rfl⟩ := h
    rw [exec, execPush, hv, orRaise_ok, opush_of_full v hfull, orFatal_error]
  | add arg | subtract arg | multiply arg | divide arg => exact ArithFault.arithInstr_eq h
  | call arg =>
    obtain ⟨hfull, rfl⟩ := h
    rw [exec, execCall, cpush_of_full _ hfull, orFatal_error]
  | pop arg | jumpIfEqual arg | jumpIfZero arg | jump arg | ret arg | exit arg => exact h.elim

theorem exec_eq_fault_iff {i : Instr} {s : State} {f : Fault} : exec i s = .fault f ↔ FaultOf i s f := by
  refine ⟨fun h => ?_, FaultOf.exec_eq⟩
  rcases exec_next_or_fault i s with ⟨t, e⟩ | ⟨f', hf, e⟩ <;> cases e.symm.trans h
  exact hf

/-- The faults other than a stack overflow are those of the ALU, in the four arithmetic instructions. -/
theorem exec_eq_fault_iff_of_ne_stackOverflow {i : Instr} {s : State} {f : Fault} (hf : f ≠ .stackOverflow) :
    exec i s = .fault f ↔
      ∃ op arg l r rest, i = ArithOp.instr op arg ∧ s.ostack = r :: l :: rest
        ∧ arith s.config.overflowPolicy op l r = .error f := by
  constructor
  · have harith : ∀ {op} (arg : Operand), ArithFault op s f →
        ∃ op' arg' l r rest, op.instr arg = ArithOp.instr op' arg' ∧ s.ostack = r :: l :: rest
          ∧ arith s.config.overflowPolicy op' l r = .error f :=
      fun {op} arg ⟨l, r, rest, hst, hcause⟩ =>
        ⟨op, arg, l, r, rest, rfl, hst, hcause.resolve_right fun h => hf h.2.2⟩
    rw [exec_eq_fault_iff]
    intro h
    cases i with
    | add arg => exact harith (op := .add) arg h
    | subtract arg => exact harith (op := .sub) arg h
    | multiply arg => exact harith (op := .mul) arg h
    | divide arg => exact harith (op := .div) arg h
    | push arg =>
      obtain ⟨-, -, hover⟩ := h
      exact absurd hover hf
    | call arg =>
      obtain ⟨-, hover⟩ := h
      exact absurd hover hf
    | pop arg | jumpIfEqual arg | jumpIfZero arg | jump arg | ret arg | exit arg => exact h.elim
  · rintro ⟨op, arg, l, r, rest, rfl, hst, herr⟩
    rw [exec_arith]
    exact ArithFault.arithInstr_eq ⟨l, r, rest, hst, .inl herr⟩

/-! ### Division by zero and arithmetic overflow -/

theorem arith_eq_divideByZero_iff {policy : OverflowPolicy} {op : ArithOp} {l r : Value} :
    arith policy op l r = .error .divideByZero ↔ l ≠ .none ∧ op = .div ∧ conv (variantOf l) r = 0 := by
  by_cases hl : l = .none
  · simp [hl, arith_none]
  · rcases arith_cases policy op hl r with ⟨hop, hz, e⟩ | ⟨hz, -, -, e⟩ | ⟨hz, -, e⟩ <;> rw [e]
    · simp [hl, hop, hz]
    · simpa [hl] using hz
    · simpa [hl] using hz

theorem arith_eq_arithmeticOverflow_iff {policy : OverflowPolicy} {op : ArithOp} {l r : Value} :
    arith policy op l r = .error .arithmeticOverflow ↔
      l ≠ .none ∧ policy = .fatal ∧ ¬(op = .div ∧ conv (variantOf l) r = 0)
        ∧ inRange (variantOf l) (exactResult op (num l) (conv (variantOf l) r)) = false := by
  by_cases hl : l = .none
  · simp [hl, arith_none]
  · rcases arith_cases policy op hl r with ⟨hop, hz, e⟩ | ⟨hz, hfatal, hout, e⟩ | ⟨-, hpass, e⟩ <;> rw [e]
    · simp [hop, hz]
    · simp only [true_iff]
      exact ⟨hl, hfatal, hz, hout⟩
    · rcases hpass with hwrap | hin
      · simp [hwrap]
      · simp [hin]

theorem arith_ne_stackOverflow (policy : OverflowPolicy) (op : ArithOp) (l r : Value) :
    arith policy op l r ≠ .error .stackOverflow := by
  by_cases hl : l = .none
  · rw [hl, arith_none]
    nofun
  · rcases arith_cases policy op hl r with ⟨-, -, e⟩ | ⟨-, -, -, e⟩ | ⟨-, -, e⟩ <;> rw [e] <;> nofun

/-- Settles O27: the ALU's zero divisor is the one cause, and it needs the operation of `Divide`. -/
theorem divideByZeroExactlyOnCoercedZero : Obligations.DivideByZeroExactlyOnCoercedZero := by
  intro i s
  rw [exec_eq_fault_iff_of_ne_stackOverflow (f := .divideByZero) nofun]
  simp only [arith_eq_divideByZero_iff]
  constructor
  · rintro ⟨_, arg, l, r, rest, rfl, hst, hl, rfl, hz⟩
    exact ⟨arg, l, r, rest, rfl, hst, hl, hz⟩
  · rintro ⟨arg, l, r, rest, rfl, hst, hl, hz⟩
    exact ⟨.div, arg, l, r, rest, rfl, hst, hl, rfl, hz⟩

/-- An arithmetic instruction with its exact result on the numbers `a` and `b`, spelled out for the four operations. -/
theorem exists_op_exactResult_iff {i : Instr} {arg : Operand} {a b x : Int} :
    (∃ op, i = ArithOp.instr op arg ∧ ¬(op = .div ∧ b = 0) ∧ x = exactResult op a b) ↔
      (i = .add arg ∧ x = a + b) ∨ (i = .subtract arg ∧ x = a - b) ∨ (i = .multiply arg ∧ x = a * b) ∨
      (i = .divide arg ∧ b ≠ 0 ∧ x = a.tdiv b) := by
  constructor
  · rintro ⟨op, rfl, hz, rfl⟩
    cases op with
    | add => exact .inl ⟨rfl, rfl⟩
    | sub => exact .inr (.inl ⟨rfl, rfl⟩)
    | mul => exact .inr (.inr (.inl ⟨rfl, rfl⟩))
    | div => exact .inr (.inr (.inr ⟨rfl, fun hb => hz ⟨rfl, hb⟩, rfl⟩))
  · rintro (⟨rfl, rfl⟩ | ⟨rfl, rfl⟩ | ⟨rfl, rfl⟩ | ⟨rfl, hb, rfl⟩)
    · exact ⟨.add, rfl, nofun, rfl⟩
    · exact ⟨.sub, rfl, nofun, rfl⟩
    · exact ⟨.mul, rfl, nofun, rfl⟩
    · exact ⟨.div, rfl, fun h => hb h.2, rfl⟩

/-- Settles O28: the ALU's range check is the one cause, and it comes after the check of the divisor. -/
theorem arithmeticOverflowExactlyUnderFatalPolicy : Obligations.ArithmeticOverflowExactlyUnderFatalPolicy := by
  intro i s
  rw [exec_eq_fault_iff_of_ne_stackOverflow (f := .arithmeticOverflow) nofun]
  simp only [arith_eq_arithmeticOverflow_iff, ← exists_op_exactResult_iff, ← inRange_iff, Bool.not_eq_true]
  constructor
  · rintro ⟨op, arg, l, r, rest, hi, hst, hl, hfatal, hz, hout⟩
    exact ⟨hfatal, arg, l, r, rest, _, hst, hl, hout, op, hi, hz, rfl⟩
  · rintro ⟨hfatal, arg, l, r, rest, _, hst, hl, hout, op, hi, hz, rfl⟩
    exact ⟨op, arg, l, r, rest, hi, hst, hl, hfatal, hz, hout⟩

/-! ### Stack overflow -/

/-- A stack that does not exceed its depth is full exactly when it has reached it. -/
theorem WithinDepth.stackFull_iff {depth : Option Nat} {st : List Value} (h : WithinDepth depth st) :
    stackFull depth st.length = true ↔ depth = some st.length := by
  rw [stackFull_eq_true_iff]
  constructor
  · rintro ⟨d, hd, hle⟩
    rw [hd, le_antisymm hle (h d hd)]
  · exact fun hd => ⟨st.length, hd, le_rfl⟩

/-- The operands that have a value (spec R179, decision D6). -/
theorem exists_argValue_iff {arg : Operand} {s : State} :
    (∃ v, argValue arg s = .ok v) ↔ arg.isInstruction = false ∧ (arg = .none → s.config.pushNone = .pushes) := by
  cases arg with
  | none => cases hnone : s.config.pushNone <;> simp [argValue, hnone, Operand.isInstruction]
  | instruction i => simp [argValue, Operand.isInstruction]
  | _ => simp [argValue, Operand.isInstruction]

/-- An arithmetic instruction pops two values before it pushes one, so within the depth its push finds room. -/
theorem not_arithFault_stackOverflow {s : State} (h : WithinDepth s.config.ostackDepth s.ostack) (op : ArithOp) :
    ¬ArithFault op s .stackOverflow := by
  rintro ⟨l, r, rest, hst, herr | ⟨-, hfull, -⟩⟩
  · exact arith_ne_stackOverflow _ _ _ _ herr
  · have hroom := stackFull_eq_false_of_fits (n := rest.length) h (by simp [hst])
    cases hfull.symm.trans hroom

/-- Settles O29: `Push` and `Call` fault on a full stack, and within the depths full means at the depth. -/
theorem stackOverflowExactlyOnFullStack : Obligations.StackOverflowExactlyOnFullStack := by
  intro i s host hcst
  rw [exec_eq_fault_iff]
  cases i with
  | push arg => simp [FaultOf, exists_argValue_iff, host.stackFull_iff, and_assoc]
  | call arg => simp [FaultOf, hcst.stackFull_iff]
  | add arg | subtract arg | multiply arg | divide arg => simp [FaultOf, not_arithFault_stackOverflow host]
  | pop arg | jumpIfEqual arg | jumpIfZero arg | jump arg | ret arg | exit arg => simp [FaultOf]

end Sys2Proof.Machine
end

section
/-! SUPPORT. The six errors (spec R250 to R256): `ErrorOf` lists the errors of an instruction exactly, and the causes of
each kind are read off from it. -/

namespace Sys2Proof.Machine

/-! ### The errors of an instruction, exactly -/

/-- A result ends in the error `kind`. -/
def Raises (o : Result) (kind : ErrorKind) : Prop := ∃ t, o = .next t ∧ t.report = .errs kind

@[simp] theorem raises_next {t : State} {kind : ErrorKind} : Raises (.next t) kind ↔ .errs kind = t.report := by
  simp [Raises, eq_comm]

@[simp] theorem not_raises_fault {f : Fault} {kind : ErrorKind} : ¬Raises (.fault f) kind := by
  simp [Raises]

/-- The errors of each instruction, with the condition of each (spec R251 to R256); the kind is the one whose check
comes first (spec R264). -/
def ErrorOf (i : Instr) (s : State) (kind : ErrorKind) : Prop :=
  match i with
  | .push arg => argValue arg s = .error .valueExpected ∧ kind = .valueExpected
  | .pop arg =>
    (s.ostack = [] ∧ kind = .stackEmpty) ∨ (s.ostack ≠ [] ∧ arg.isRegister = false ∧ kind = .registerExpected)
  | .add _ | .subtract _ | .multiply _ | .divide _ => s.ostack.length < 2 ∧ kind = .stackEmpty
  | .jumpIfEqual arg =>
    (s.ostack.length < 2 ∧ kind = .stackEmpty) ∨
    (arg.isInstruction = false ∧ (∃ l r rest, s.ostack = r :: l :: rest ∧ condEqual l r = true)
      ∧ kind = .instructionExpected)
  | .jumpIfZero arg =>
    (s.ostack = [] ∧ kind = .stackEmpty) ∨
    (arg.isInstruction = false ∧ (∃ v rest, s.ostack = v :: rest ∧ num v = 0) ∧ kind = .instructionExpected)
  | .jump arg => arg.isInstruction = false ∧ kind = .instructionExpected
  | .call arg =>
    stackFull s.config.cstackDepth s.cstack.length = false ∧ arg.isInstruction = false ∧ kind = .instructionExpected
  | .ret _ =>
    (s.cstack = [] ∧ kind = .callStackEmpty) ∨
    ((∃ v rest, s.cstack = v :: rest ∧ variantOf v ≠ .returnAddress) ∧ kind = .instructionExpected)
  | .exit _ => False

theorem raises_arithInstr {op : ArithOp} {s : State} {kind : ErrorKind} :
    Raises (arithInstr op s) kind ↔ s.ostack.length < 2 ∧ kind = .stackEmpty := by
  rcases arithInstr_cases op s with ⟨hlen, e⟩ | ⟨l, r, rest, hst, ⟨v, -, -, e⟩ | ⟨v, -, -, e⟩ | ⟨f, -, e⟩⟩ <;> rw [e]
  · simp [hlen]
  · simp [hst]
  · simp [hst]
  · simp [hst]

theorem exec_raises_iff {i : Instr} {s : State} {kind : ErrorKind} : Raises (exec i s) kind ↔ ErrorOf i s kind := by
  cases i with
  | push arg =>
    rcases execPush_cases arg s with ⟨v, hv, -, e⟩ | ⟨v, hv, -, e⟩ | ⟨herr, e⟩ <;> rw [exec, e]
    · simp [ErrorOf, hv]
    · simp [ErrorOf, hv]
    · simp [ErrorOf, herr]
  | pop arg =>
    rcases execPop_cases arg s with ⟨hst, e⟩ | ⟨v, rest, r, hst, rfl, e⟩ | ⟨v, rest, hst, harg, e⟩ <;> rw [exec, e]
    · simp [ErrorOf, hst]
    · simp [ErrorOf, hst, Operand.isRegister]
    · simp [ErrorOf, hst, harg]
  | add arg | subtract arg | multiply arg | divide arg => exact raises_arithInstr
  | jumpIfEqual arg =>
    rcases execJumpIfEqual_cases arg s with
      ⟨hlen, e⟩ | ⟨l, r, rest, hst, ⟨heq, t, rfl, e⟩ | ⟨heq, harg, e⟩ | ⟨hne, e⟩⟩ <;> rw [exec, e]
    · have hst : ∀ l r rest, s.ostack ≠ r :: l :: rest := by
        intro l r rest hst
        simp [hst] at hlen
      simp [ErrorOf, hlen, hst]
    · simp [ErrorOf, hst, Operand.isInstruction]
    · simp [ErrorOf, hst, harg, heq]
    · simp [ErrorOf, hst, hne]
  | jumpIfZero arg =>
    rcases execJumpIfZero_cases arg s with
      ⟨hst, e⟩ | ⟨v, rest, hst, ⟨hzero, t, rfl, e⟩ | ⟨hzero, harg, e⟩ | ⟨hne, e⟩⟩ <;> rw [exec, e]
    · simp [ErrorOf, hst]
    · simp [ErrorOf, hst, Operand.isInstruction]
    · have hnum : num v = 0 := by simpa [condZero_eq] using hzero
      simp [ErrorOf, hst, harg, hnum]
    · have hnum : num v ≠ 0 := by simpa [condZero_eq] using hne
      simp [ErrorOf, hst, hnum]
  | jump arg =>
    rcases execJump_cases arg s with ⟨t, rfl, e⟩ | ⟨harg, e⟩ <;> rw [exec, e]
    · simp [ErrorOf, Operand.isInstruction]
    · simp [ErrorOf, harg]
  | call arg =>
    rcases execCall_cases arg s with ⟨hfull, e⟩ | ⟨-, t, rfl, e⟩ | ⟨hroom, harg, e⟩ <;> rw [exec, e]
    · simp [ErrorOf, hfull]
    · simp [ErrorOf, Operand.isInstruction]
    · simp [ErrorOf, hroom, harg]
  | ret arg =>
    rcases execReturn_cases arg s with ⟨hst, e⟩ | ⟨a, rest, hst, e⟩ | ⟨v, rest, hst, hv, e⟩ <;> rw [exec, e]
    · simp [ErrorOf, hst]
    · simp [ErrorOf, hst, variantOf]
    · have hvariant := variantOf_ne_returnAddress hv
      simp [ErrorOf, hst, hvariant]
  | exit arg =>
    rw [exec, execExit_eq]
    simp [ErrorOf]

/-- The errors of a step: the fetch's own (spec R253), and those of the fetched instruction. -/
theorem step_raises_iff {s : State} {kind : ErrorKind} :
    Raises (step s) kind ↔
      (s.program.length ≤ s.pc.toNat ∧ kind = .instructionOverflow) ∨
      ∃ i, s.program[s.pc.toNat]? = some i ∧ ErrorOf i s kind := by
  rw [← fetch_eq_none_iff]
  rcases step_cases s with ⟨hfetch, e⟩ | ⟨i, hfetch, e⟩ <;> rw [e, ← fetch, hfetch]
  · simp
  · simp [exec_raises_iff]

/-- The causes of a kind that the fetch does not raise are those of the fetched instruction. -/
theorem step_raises_iff_exists {s : State} {kind : ErrorKind} {P : Instr → Prop}
    (hkind : kind ≠ .instructionOverflow) (hP : ∀ i, ErrorOf i s kind ↔ P i) :
    Raises (step s) kind ↔ ∃ i, s.program[s.pc.toNat]? = some i ∧ P i := by
  simp only [step_raises_iff, hkind, and_false, false_or, hP]

/-- The same for a kind that one opcode alone raises, `mk` being its constructor. -/
theorem step_raises_iff_exists_operand {s : State} {kind : ErrorKind} {mk : Operand → Instr} {P : Operand → Prop}
    (hkind : kind ≠ .instructionOverflow) (hP : ∀ i, ErrorOf i s kind ↔ ∃ arg, i = mk arg ∧ P arg) :
    Raises (step s) kind ↔ ∃ arg, s.program[s.pc.toNat]? = some (mk arg) ∧ P arg := by
  rw [step_raises_iff_exists hkind hP]
  constructor
  · rintro ⟨_, hi, arg, rfl, h⟩
    exact ⟨arg, hi, h⟩
  · rintro ⟨arg, hi, h⟩
    exact ⟨mk arg, hi, arg, rfl, h⟩

/-- The kinds that an instruction raises before it has done anything (spec R183). -/
theorem partialEffect_eq_nothing {kind : ErrorKind}
    (hkind : kind = .instructionOverflow ∨ kind = .valueExpected ∨ kind = .callStackEmpty)
    (op : Option Opcode) (n : Nat) : partialEffect op kind n = .nothing := by
  rcases op with _ | op
  · rfl
  · rcases hkind with rfl | rfl | rfl <;> cases op <;> rfl

/-- An error of such a kind changes the report alone. -/
theorem eq_setReport_of_error {s t : State} {kind : ErrorKind}
    (hkind : kind = .instructionOverflow ∨ kind = .valueExpected ∨ kind = .callStackEmpty) (h : step s = .next t)
    (hr : t.report = .errs kind) : t = s.setReport (.errs kind) := by
  have hleft := step_error_left h hr
  rw [partialEffect_eq_nothing hkind] at hleft
  obtain ⟨host, hcst⟩ := hleft
  have hpc := step_error_pc h hr
  have hregs := step_error_regs h hr
  have hprogram := (step_effect h).program_eq
  have hconfig := (step_effect h).config_eq
  obtain ⟨⟨pc, regs, ost, cst⟩, program, config, report⟩ := t
  simp only at host hcst hpc hregs hprogram hconfig hr
  subst host hcst hpc hregs hprogram hconfig hr
  rfl

/-! ### The causes of each kind -/

theorem errorOf_stackEmpty_iff {i : Instr} {s : State} :
    ErrorOf i s .stackEmpty ↔
      ((i.opcode = .pop ∨ i.opcode = .jumpIfZero) ∧ s.ostack = []) ∨
      ((i.opcode = .add ∨ i.opcode = .subtract ∨ i.opcode = .multiply ∨ i.opcode = .divide
         ∨ i.opcode = .jumpIfEqual) ∧ s.ostack.length < 2) := by
  cases i with
  | pop arg | jumpIfZero arg => simp [ErrorOf, Instr.opcode]
  | add arg | subtract arg | multiply arg | divide arg | jumpIfEqual arg => simp [ErrorOf, Instr.opcode]
  | push arg | jump arg | call arg | ret arg | exit arg => simp [ErrorOf, Instr.opcode]

/-- Settles O39: the rows of `ErrorOf` with this kind, and the two outcomes of the host's pop. -/
theorem stackEmptyExactlyOnEmptyOperandStack : Obligations.StackEmptyExactlyOnEmptyOperandStack := by
  intro s
  refine ⟨step_raises_iff_exists (kind := .stackEmpty) nofun fun _ => errorOf_stackEmpty_iff, ?_⟩
  rcases hostPop_cases s with ⟨hst, e⟩ | ⟨v, rest, hst, e⟩ <;> rw [e, hst]
  · exact ⟨⟨fun _ => rfl, fun _ => rfl⟩, fun kind h => (Except.error.inj h).symm⟩
  · exact ⟨⟨nofun, nofun⟩, nofun⟩

theorem errorOf_instructionExpected_iff {i : Instr} {s : State} :
    ErrorOf i s .instructionExpected ↔
      (∃ arg, i = .jump arg ∧ arg.isInstruction = false) ∨
      (∃ arg, i = .call arg ∧ arg.isInstruction = false
         ∧ ∀ d, s.config.cstackDepth = some d → s.cstack.length < d) ∨
      (∃ arg l r rest, i = .jumpIfEqual arg ∧ arg.isInstruction = false ∧ s.ostack = r :: l :: rest
         ∧ condEqual l r = true) ∨
      (∃ arg v rest, i = .jumpIfZero arg ∧ arg.isInstruction = false ∧ s.ostack = v :: rest ∧ num v = 0) ∨
      (∃ arg v rest, i = .ret arg ∧ s.cstack = v :: rest ∧ variantOf v ≠ .returnAddress) := by
  cases i with
  | jump arg => simp [ErrorOf]
  | call arg => simp [ErrorOf, stackFull_eq_false_iff, and_comm]
  | jumpIfEqual arg => simp [ErrorOf]
  | jumpIfZero arg => simp [ErrorOf]
  | ret arg => simp [ErrorOf]
  | push arg | pop arg | add arg | subtract arg | multiply arg | divide arg | exit arg => simp [ErrorOf]

/-- Settles O40: the rows of `ErrorOf` with this kind; that of `Call` asks for room first. -/
theorem instructionExpectedExactlyOnMissingTarget : Obligations.InstructionExpectedExactlyOnMissingTarget :=
  fun _ => step_raises_iff_exists (kind := .instructionExpected) nofun fun _ => errorOf_instructionExpected_iff

theorem not_errorOf_instructionOverflow (i : Instr) (s : State) : ¬ErrorOf i s .instructionOverflow := by
  cases i <;> simp [ErrorOf]

/-- Settles O41: no instruction raises the kind, only the fetch. -/
theorem instructionOverflowExactlyPastTheEnd : Obligations.InstructionOverflowExactlyPastTheEnd := by
  refine fun s => ⟨(step_raises_iff (kind := .instructionOverflow)).trans ?_, fun _ => eq_setReport_of_error (.inl rfl)⟩
  simp [not_errorOf_instructionOverflow]

/-- The operands that have no value (spec R179, decision D6). -/
theorem argValue_eq_error_iff {arg : Operand} {s : State} :
    argValue arg s = .error .valueExpected ↔
      arg.isInstruction = true ∨ (arg = .none ∧ s.config.pushNone = .valueExpected) := by
  have hfails : argValue arg s = .error .valueExpected ↔ ¬∃ v, argValue arg s = .ok v := by
    rcases argValue_cases arg s with ⟨v, hv⟩ | hv <;> simp [hv]
  rw [hfails, exists_argValue_iff]
  cases s.config.pushNone <;> cases arg.isInstruction <;> simp

theorem errorOf_valueExpected_iff {i : Instr} {s : State} :
    ErrorOf i s .valueExpected ↔
      ∃ arg, i = .push arg ∧ (arg.isInstruction = true ∨ (arg = .none ∧ s.config.pushNone = .valueExpected)) := by
  cases i with
  | push arg => simp [ErrorOf, argValue_eq_error_iff]
  | _ => simp [ErrorOf]

theorem errorOf_registerExpected_iff {i : Instr} {s : State} :
    ErrorOf i s .registerExpected ↔ ∃ arg, i = .pop arg ∧ s.ostack ≠ [] ∧ arg.isRegister = false := by
  cases i with
  | pop arg => simp [ErrorOf]
  | _ => simp [ErrorOf]

/-- Settles O42: `Push` alone raises the one kind and `Pop` alone the other. -/
theorem valueAndRegisterExpectedExactlyOnWrongOperand : Obligations.ValueAndRegisterExpectedExactlyOnWrongOperand :=
  fun _ =>
    ⟨step_raises_iff_exists_operand (kind := .valueExpected) nofun fun _ => errorOf_valueExpected_iff,
      fun _ => eq_setReport_of_error (.inr (.inl rfl)),
      step_raises_iff_exists_operand (kind := .registerExpected) nofun fun _ => errorOf_registerExpected_iff,
      fun _ => step_error_regs⟩

theorem errorOf_callStackEmpty_iff {i : Instr} {s : State} :
    ErrorOf i s .callStackEmpty ↔ ∃ arg, i = .ret arg ∧ s.cstack = [] := by
  cases i with
  | ret arg => simp [ErrorOf]
  | _ => simp [ErrorOf]

/-- Settles O43: `Return` alone raises the kind. -/
theorem callStackEmptyExactlyOnReturn : Obligations.CallStackEmptyExactlyOnReturn := by
  refine fun s => ⟨?_, fun _ => eq_setReport_of_error (.inr (.inr rfl))⟩
  refine (step_raises_iff_exists_operand (kind := .callStackEmpty) nofun fun _ => errorOf_callStackEmpty_iff).trans ?_
  rw [exists_and_right, and_comm]

end Sys2Proof.Machine
end

section
/-! SUPPORT. No event of the port changes the chosen parameters; with the bound Program, which no event changes either,
they are all that a reset rebuilds the block from (spec R280, R282). -/

namespace Sys2Proof.Machine

theorem CommandLeaves.config_eq {s t : State} (h : CommandLeaves s t) : t.config = s.config := by
  cases h with
  | nothing | pushed | popped | reset => rfl
  | stepped hstep => exact (step_effect hstep).config_eq

theorem PortLeft.config_eq {s t : State} {q : Port} (h : PortLeft s q) (ht : q.held = some t) :
    t.config = s.config := by
  cases h with
  | ready hleaves => cases ht; exact hleaves.config_eq
  | running hleaves => cases ht; exact hleaves.config_eq
  | dead kind => cases ht
  | unmodelled reason => cases ht

/-- Any accepted events, a run in progress among them, leave the parameters. -/
theorem portRun_config_eq {es : List PortEvent} {s t : State} {q : Port} (hrun : portRun es (.ready s) = some q)
    (ht : q.held = some t) : t.config = s.config :=
  portRun_keeps (P := fun u => u.config = s.config) (fun hu hleft hv => (hleft.config_eq hv).trans hu)
    (fun _ hp => by cases hp; rfl) hrun t ht

/-- A reset forgets everything but the parameters and the Program. -/
theorem hostReset_eq_construct {cfg : Config} {p : List Instr} {s : State} (hconfig : s.config = cfg)
    (hprogram : s.program = p) : hostReset s = State.construct cfg p := by
  rw [hostReset, hconfig, hprogram]

theorem portStep_issue_reset (s : State) :
    portStep (.issue .reset) (.ready s) = some (.ready (hostReset s), some .done) := rfl

/-- Settles O2: the events left the parameters and the Program, and a ready port accepts the reset. -/
theorem resetRestoresConstructedBlock : Obligations.ResetRestoresConstructedBlock := by
  intro cfg p es q t hrun ht
  have hreset : hostReset t = State.construct cfg p :=
    hostReset_eq_construct (portRun_config_eq hrun ht) (portRun_program_eq hrun ht)
  refine ⟨hreset, ?_⟩
  rintro rfl
  rw [portStep_issue_reset, hreset]

end Sys2Proof.Machine
end
